-- ==== Sys2Proof/Word.lean ====
section
/-! DEFINITION. The two word types of DLSP-CORE (00_scope.md R8): an 8-bit byte and a 16-bit command or response word. -/

namespace Sys2Proof

/-- A byte, unsigned, bit 7 the most significant (R8, R10). -/
abbrev Byte := BitVec 8

/-- A command word (CMD16) or a response word (RESP16), a 16-bit value passed whole (R8, R47). -/
abbrev Word16 := BitVec 16

end Sys2Proof
end

