-- ==== Sys2Proof/Syntax.lean ====
section
/-! DEFINITION. The decoder's three states, the items a host sends, and `Instr`: one constructor for every row of
spec/opcode_table.json. -/

namespace Sys2Proof

/-- The decoder state `st` (R23): a closed set of three. -/
inductive DecState where
  | waitHeader
  | inFrame
  | afterEscape
  deriving DecidableEq, Repr

/-- One item the host sends to the block (R67, R71): a 16-bit command word or a data beat of one byte. -/
inductive HostItem where
  | word (w : Word16)
  | beat (b : Byte)
  deriving DecidableEq, Repr

/-- The three commands whose ARG must be 0 (R69). -/
inductive NoArgOp where
  | reset
  | isCompleted
  | size
  deriving DecidableEq, Repr

/-- The two commands whose ARG holds one byte in ARG[7:0] (R69). -/
inductive ByteArgOp where
  | decodeByte
  | readByte
  deriving DecidableEq, Repr

/-- One constructor for each row of spec/opcode_table.json, in the table's order. The first seven are the commands
(format CMD16, R69), the next four the illegal command words (R72). The `rx` rows are the decoder's byte classes (format
RXBYTE, R65): one transition of the decoder each. The `tx` rows are the encoder's byte classes (format TXBYTE, R62): what
ENCODE appends for one payload byte. -/
inductive Instr where
  /-- RESET (R150). -/
  | reset
  /-- ENCODE raw (R100): the payload is the command's data beats. -/
  | encode (raw : List Byte)
  /-- DECODE_MSG frame (R129): the input frame is the command's data beats. -/
  | decodeMsg (frame : List Byte)
  /-- DECODE_BYTE b (R120). -/
  | decodeByte (b : Byte)
  /-- IS_COMPLETED (R151). -/
  | isCompleted
  /-- SIZE (R152). -/
  | size
  /-- READ_BYTE i (R153). -/
  | readByte (i : Byte)
  /-- A word with OP = 0x0 (R72). -/
  | reservedOp0 (arg : BitVec 12)
  /-- A word with OP = 0x8 to 0xF (R72); `low` is OP's low three bits. -/
  | reservedOp8F (low : BitVec 3) (arg : BitVec 12)
  /-- RESET, IS_COMPLETED or SIZE with ARG ≠ 0 (R72). -/
  | illegalNoArg (op : NoArgOp) (arg : BitVec 12)
  /-- DECODE_BYTE or READ_BYTE with ARG[11:8] ≠ 0 (R72). -/
  | illegalByteArg (op : ByteArgOp) (hi : BitVec 4) (lo : Byte)
  /-- HDR received in WaitHeader (R121). -/
  | rxHeader
  /-- Any other byte received in WaitHeader (R121). -/
  | rxNoise (b : Byte)
  /-- FTR received in InFrame (R122). -/
  | rxFooter
  /-- ESC received in InFrame (R123). -/
  | rxEscape
  /-- HDR received in InFrame (R124). -/
  | rxCorrupt
  /-- Any other byte received in InFrame (R125). -/
  | rxData (b : Byte)
  /-- Any byte received in AfterEscape (R126). -/
  | rxEscaped (b : Byte)
  /-- A payload byte in the special set, as ENCODE emits it (R62, R100). -/
  | txSpecial (b : Byte)
  /-- A payload byte outside the special set, as ENCODE emits it (R62, R100). -/
  | txOrdinary (b : Byte)
  deriving DecidableEq, Repr

/-- An instruction's encoding in the format its row of the opcode table gives it. -/
inductive Encoding where
  /-- CMD16: a command word and its data beats (R68, R71). -/
  | cmd16 (items : List HostItem)
  /-- RXBYTE: a received byte, classified by the decoder state that receives it (R65). -/
  | rxByte (st : DecState) (b : Byte)
  /-- TXBYTE: a raw payload byte the encoder takes (R62). -/
  | txByte (b : Byte)
  deriving DecidableEq, Repr

end Sys2Proof
end

