-- ==== Sys2Proof/Machine/Operands.lean ====
section
/-! DEFINITION. The operand forms of a command word (R68): every operand is a field of ARG, unsigned and zero-extended,
and ENCODE and DECODE_MSG take a byte sequence whose length is ARG (R71). -/

namespace Sys2Proof

/-- OP, bits 15 to 12 (R68). -/
def opOf (w : Word16) : BitVec 4 := w.extractLsb' 12 4

/-- ARG, bits 11 to 0 (R68). -/
def argOf (w : Word16) : BitVec 12 := w.extractLsb' 0 12

/-- ARG[11:8], which must be 0 in a command that carries one byte (R69). -/
def argHiOf (w : Word16) : BitVec 4 := w.extractLsb' 8 4

/-- ARG[7:0], the operand b of DECODE_BYTE and i of READ_BYTE (R68). -/
def argByteOf (w : Word16) : Byte := w.extractLsb' 0 8

/-- How many data beats follow a command word: L = ARG for ENCODE and DECODE_MSG, none otherwise. OP alone decides
whether beats follow (R71, R72, R73). -/
def beatCount (w : Word16) : Nat :=
  if opOf w = 2 ∨ opOf w = 3 then (argOf w).toNat else 0

/-- The command word with the given OP and ARG (R68). -/
def cmdWord (op : BitVec 4) (arg : BitVec 12) : Word16 := op ++ arg

/-- ARG of a command that carries one byte: the byte in ARG[7:0] under ARG[11:8] (R68). -/
def byteArg (hi : BitVec 4) (lo : Byte) : BitVec 12 := hi ++ lo

end Sys2Proof
end

