-- ==== Sys2Proof/Machine/Wire.lean ====
section
/-! DEFINITION. The special bytes and the wire format of 30_encoding.md sections 1 and 2 (R60 to R63). -/

namespace Sys2Proof

/-- The first byte of every frame (R60). -/
def HDR : Byte := 0x7B

/-- The byte that announces an escaped byte (R60). -/
def ESC : Byte := 0x7C

/-- The last byte of every frame (R60). -/
def FTR : Byte := 0x7D

/-- The mask XORed into an escaped byte (R60). -/
def XORM : Byte := 0x20

/-- Membership of the special set S (R61): the bytes the encoder escapes. -/
abbrev Special (b : Byte) : Prop := b = HDR ∨ b = ESC ∨ b = FTR

/-- What the escape map makes of one payload byte (R62). -/
def escapeByte (x : Byte) : List Byte := if Special x then [ESC, x ^^^ XORM] else [x]

/-- The escape map E (R62). -/
def escape : List Byte → List Byte
  | [] => []
  | x :: r => escapeByte x ++ escape r

/-- s(p), how many bytes of p are in S (R63). -/
def specialCount : List Byte → Nat
  | [] => 0
  | x :: r => (if Special x then 1 else 0) + specialCount r

/-- Frame(p) = [HDR] · E(p) · [FTR] (R63). -/
def frame (p : List Byte) : List Byte := HDR :: (escape p ++ [FTR])

end Sys2Proof
end

