-- ==== Sys2Proof/WellFormed.lean ====
section
/-! DEFINITION. Which terms of `Instr` have an encoding in their row's format. The execution of a command does not ask for
it: the transaction view admits a byte sequence of any length (R71, R76, D18). -/

namespace Sys2Proof

/-- Whether the instruction's row of the opcode table can encode it: a sequence that the 12-bit length field can count
(R71), an illegal word that is illegal (R72), a byte that is in its row's class (R65, R62). -/
def Instr.wellFormed : Instr → Bool
  | .reset => true
  | .encode raw => decide (raw.length ≤ 4095)
  | .decodeMsg frame => decide (frame.length ≤ 4095)
  | .decodeByte _ => true
  | .isCompleted => true
  | .size => true
  | .readByte _ => true
  | .reservedOp0 _ => true
  | .reservedOp8F _ _ => true
  | .illegalNoArg _ arg => decide (arg ≠ 0)
  | .illegalByteArg _ hi _ => decide (hi ≠ 0)
  | .rxHeader => true
  | .rxNoise b => decide (b ≠ HDR)
  | .rxFooter => true
  | .rxEscape => true
  | .rxCorrupt => true
  | .rxData b => decide (¬ Special b)
  | .rxEscaped _ => true
  | .txSpecial b => decide (Special b)
  | .txOrdinary b => decide (¬ Special b)

/-- The check as a proposition. -/
abbrev Instr.WellFormed (i : Instr) : Prop := i.wellFormed = true

end Sys2Proof
end

