-- ==== Sys2Proof/Decode.lean ====
section
/-! DEFINITION. The decoder of what a host sends, total and rejecting by name, the two byte classifiers of the opcode
table, and after them the encoder (30_encoding.md, opcode_table.json). -/

namespace Sys2Proof

/-- Why the items a host has sent hold no complete command at their head. -/
inductive DecodeError where
  /-- Nothing has been sent. -/
  | empty
  /-- A command word is there, and fewer data beats than it takes have arrived (R71). -/
  | missingBeats
  /-- A data beat stands where a command word must (R72, R73). -/
  | strayBeat
  /-- A command word stands among the data beats of the command before it (R203). -/
  | wordAmongBeats
  deriving DecidableEq, Repr

/-- What taking the data beats of a command gives. -/
inductive BeatsResult where
  | ok (beats : List Byte) (rest : List HostItem)
  | error (e : DecodeError)
  deriving DecidableEq, Repr

/-- What decoding gives: the instruction with the items after it, or the reason there is none. -/
inductive DecodeResult where
  | ok (i : Instr) (rest : List HostItem)
  | error (e : DecodeError)
  deriving DecidableEq, Repr

/-- Put one more byte before the beats already taken. -/
def consBeat (b : Byte) : BeatsResult → BeatsResult
  | .ok bs rest => .ok (b :: bs) rest
  | .error e => .error e

/-- The next `n` data beats, beat 0 first (R71). -/
def takeBeats : Nat → List HostItem → BeatsResult
  | 0, rest => .ok [] rest
  | _ + 1, [] => .error .missingBeats
  | _ + 1, .word _ :: _ => .error .wordAmongBeats
  | n + 1, .beat b :: rest => consBeat b (takeBeats n rest)

/-- A RESET, IS_COMPLETED or SIZE word: the command when ARG is 0, an illegal word otherwise (R69, R72). -/
def decodeNoArg (op : NoArgOp) (i : Instr) (w : Word16) : Instr :=
  if argOf w = 0 then i else .illegalNoArg op (argOf w)

/-- A DECODE_BYTE or READ_BYTE word: the command when ARG[11:8] is 0, an illegal word otherwise (R69, R72). -/
def decodeByteArg (op : ByteArgOp) (i : Instr) (w : Word16) : Instr :=
  if argHiOf w = 0 then i else .illegalByteArg op (argHiOf w) (argByteOf w)

/-- The instruction of a command word and its data beats (R69, R72). -/
def decodeCommand (w : Word16) (beats : List Byte) : Instr :=
  match (opOf w).toNat with
  | 0 => .reservedOp0 (argOf w)
  | 1 => decodeNoArg .reset .reset w
  | 2 => .encode beats
  | 3 => .decodeMsg beats
  | 4 => decodeByteArg .decodeByte (.decodeByte (argByteOf w)) w
  | 5 => decodeNoArg .isCompleted .isCompleted w
  | 6 => decodeNoArg .size .size w
  | 7 => decodeByteArg .readByte (.readByte (argByteOf w)) w
  | _ => .reservedOp8F (w.extractLsb' 12 3) (argOf w)

/-- A command word with the beats taken for it. -/
def decodeTaken (w : Word16) : BeatsResult → DecodeResult
  | .ok bs rest => .ok (decodeCommand w bs) rest
  | .error e => .error e

/-- The command at the head of what the host has sent, with the items after it (R71, R73). -/
def decode : List HostItem → DecodeResult
  | [] => .error .empty
  | .beat _ :: _ => .error .strayBeat
  | .word w :: rest => decodeTaken w (takeBeats (beatCount w) rest)

/-- The byte class of a received byte, by the decoder state (R65). -/
def classifyRx (st : DecState) (b : Byte) : Instr :=
  match st with
  | .waitHeader => if b = HDR then .rxHeader else .rxNoise b
  | .inFrame =>
    if b = FTR then .rxFooter
    else if b = ESC then .rxEscape
    else if b = HDR then .rxCorrupt
    else .rxData b
  | .afterEscape => .rxEscaped b

/-- The byte class of a raw payload byte in ENCODE (R62). -/
def classifyTx (b : Byte) : Instr := if Special b then .txSpecial b else .txOrdinary b

/-- The instruction an encoding stands for; `none` where CMD16 items are not exactly one command. -/
def decodeEncoding : Encoding → Option Instr
  | .cmd16 items =>
    match decode items with
    | .ok i [] => some i
    | _ => none
  | .rxByte st b => some (classifyRx st b)
  | .txByte b => some (classifyTx b)

/-! ## The encoder -/

/-- OP of a command whose ARG is 0 (R69). -/
def NoArgOp.code : NoArgOp → BitVec 4
  | .reset => 0x1
  | .isCompleted => 0x5
  | .size => 0x6

/-- OP of a command whose ARG holds a byte (R69). -/
def ByteArgOp.code : ByteArgOp → BitVec 4
  | .decodeByte => 0x4
  | .readByte => 0x7

/-- A command word followed by its data beats (R71). -/
def withBeats (op : BitVec 4) (bs : List Byte) : List HostItem :=
  .word (cmdWord op (BitVec.ofNat 12 bs.length)) :: bs.map .beat

/-- The encoding of an instruction in its row's format, from the tables of R65, R69 and R72. -/
def encode : Instr → Encoding
  | .reset => .cmd16 [.word (cmdWord 0x1 0)]
  | .encode raw => .cmd16 (withBeats 0x2 raw)
  | .decodeMsg frame => .cmd16 (withBeats 0x3 frame)
  | .decodeByte b => .cmd16 [.word (cmdWord 0x4 (byteArg 0 b))]
  | .isCompleted => .cmd16 [.word (cmdWord 0x5 0)]
  | .size => .cmd16 [.word (cmdWord 0x6 0)]
  | .readByte i => .cmd16 [.word (cmdWord 0x7 (byteArg 0 i))]
  | .reservedOp0 arg => .cmd16 [.word (cmdWord 0x0 arg)]
  | .reservedOp8F low arg => .cmd16 [.word (cmdWord ((1 : BitVec 1) ++ low) arg)]
  | .illegalNoArg op arg => .cmd16 [.word (cmdWord op.code arg)]
  | .illegalByteArg op hi lo => .cmd16 [.word (cmdWord op.code (byteArg hi lo))]
  | .rxHeader => .rxByte .waitHeader HDR
  | .rxNoise b => .rxByte .waitHeader b
  | .rxFooter => .rxByte .inFrame FTR
  | .rxEscape => .rxByte .inFrame ESC
  | .rxCorrupt => .rxByte .inFrame HDR
  | .rxData b => .rxByte .inFrame b
  | .rxEscaped b => .rxByte .afterEscape b
  | .txSpecial b => .txByte b
  | .txOrdinary b => .txByte b

/-! ## The opcode table's numbering of bits -/

/-- The items of an instruction whose bits are `w`: the command word is bits 15 to 0, and a word takes as many beats as
R71 says. The spec gives a beat no place in a number wider than a word (R47, D13): that beat k is bits 23+8k to 16+8k, and
0 where the number has no bits there, is the model's (DESIGN CHOICE, assumption 14). -/
def tableItems (w : Nat) : List HostItem :=
  .word (BitVec.ofNat 16 w)
    :: (List.range (beatCount (BitVec.ofNat 16 w))).map fun k => .beat (BitVec.ofNat 8 (w >>> (16 + 8 * k)))

/-- The decoder state whose class the opcode table's 8-bit words are read in. The table's RXBYTE rows fix the byte only
for RX_HEADER and RX_CORRUPT (0x7B), RX_ESCAPE (0x7C) and RX_FOOTER (0x7D), and name the state beside it; a byte alone
cannot tell RX_HEADER from RX_CORRUPT, and this reads it as RX_HEADER (DESIGN CHOICE, assumption 10). -/
def tableRxState (b : Byte) : DecState := if b = HDR then .waitHeader else .inFrame

/-- What the decoder reads from a row of the opcode table: a 16-bit command word, or an 8-bit received byte. -/
def decodeTableWord (nbits w : Nat) : Option Instr :=
  if nbits = 8 then some (classifyRx (tableRxState (BitVec.ofNat 8 w)) (BitVec.ofNat 8 w))
  else if nbits < 16 then none
  else decodeEncoding (.cmd16 (tableItems w))

/-! ## Assembler text -/

/-- A byte in the notation of R10: 0x and two hexadecimal digits. -/
def asmByte (b : Byte) : String :=
  "0x" ++ String.ofList (Nat.toDigits 16 (b.toNat / 16)) ++ String.ofList (Nat.toDigits 16 (b.toNat % 16))

/-- A byte sequence in the notation of R74. -/
def asmBytes (bs : List Byte) : String := "[" ++ ", ".intercalate (bs.map asmByte) ++ "]"

/-- A command in the assembler syntax of R74; illegal words and byte classes have no assembler text. -/
def asm : Instr → Option String
  | .reset => some "RESET"
  | .encode raw => some ("ENCODE " ++ asmBytes raw)
  | .decodeMsg frame => some ("DECODE_MSG " ++ asmBytes frame)
  | .decodeByte b => some ("DECODE_BYTE " ++ asmByte b)
  | .isCompleted => some "IS_COMPLETED"
  | .size => some "SIZE"
  | .readByte i => some ("READ_BYTE " ++ asmByte i)
  | .reservedOp0 _ => none
  | .reservedOp8F _ _ => none
  | .illegalNoArg _ _ => none
  | .illegalByteArg _ _ _ => none
  | .rxHeader => none
  | .rxNoise _ => none
  | .rxFooter => none
  | .rxEscape => none
  | .rxCorrupt => none
  | .rxData _ => none
  | .rxEscaped _ => none
  | .txSpecial _ => none
  | .txOrdinary _ => none

end Sys2Proof
end

