-- ==== Sys2Proof/Machine/Flags.lean ====
section
/-! DEFINITION. The flag computations and the response: how `completed` is read out (R151), the status kinds (R171) and the
response word (R70). Success and failure are no state: they stand in the response only (R28). -/

namespace Sys2Proof.Machine

/-- The kinds of failure (R171); kind NONE, code 0, is that of a success. -/
inductive Kind where
  | overflow
  | corruption
  | truncation
  | range
  | illegal
  deriving DecidableEq, Repr

/-- The 3-bit code of a kind (R171). -/
def Kind.code : Kind → BitVec 3
  | .overflow => 1
  | .corruption => 2
  | .truncation => 3
  | .range => 4
  | .illegal => 5

/-- A response (R70, R76): success with a data byte, or failure with a kind. -/
inductive Response where
  | ok (data : Byte)
  | fail (k : Kind)
  deriving DecidableEq, Repr

/-- The response word RESP16 (R70): OK in bit 15, KIND in bits 14 to 12, zeros in bits 11 to 8, DATA in bits 7 to 0. -/
def Response.toWord : Response → Word16
  | .ok data => (1 : BitVec 1) ++ (0 : BitVec 3) ++ (0 : BitVec 4) ++ data
  | .fail k => (0 : BitVec 1) ++ k.code ++ (0 : BitVec 4) ++ (0 : BitVec 8)

/-- The OK bit of a response word (R70), DLSP's Boolean signal. -/
def respOk (w : Word16) : Bool := w.extractLsb' 15 1 == 1

/-- The DATA field of a response word (R70). -/
def respData (w : Word16) : Byte := w.extractLsb' 0 8

/-- zext_8(completed), what IS_COMPLETED reads (R151). -/
def flagByte (completed : Bool) : Byte := if completed then 1 else 0

end Sys2Proof.Machine
end

