-- ==== Sys2Proof/Config.lean ====
section
/-! DEFINITION. What is fixed when an instance of DLSP-CORE is made (R5 to R7, R25), and the one free value of the
model: what a buffer byte holds at power-on (R33). -/

namespace Sys2Proof

/-- The parameters of one instance: the capacity N, 1 ≤ N ≤ 126 (R5; a value outside that range makes no instance, D12),
and ESC_OVERFLOW_REPORT (R7). No command changes or reads them (R25). -/
structure Config where
  /-- N, the largest raw payload length. -/
  N : Nat
  /-- ESC_OVERFLOW_REPORT: whether the overflow of an escaped byte is reported. -/
  escOverflowReport : Bool
  N_pos : 1 ≤ N
  N_le : N ≤ 126
  deriving DecidableEq, Repr

/-- BUF_SIZE = 2N + 2, the number of bytes of the buffer (R6). -/
def Config.bufSize (c : Config) : Nat := 2 * c.N + 2

/-- The unspecified content of buffer byte `i` at power-on (R33, U1 of 93_implementation_defined.md): a FREE VALUE, with
no body, so nothing can be proved of it. It is what an index that nothing has written since power-on reads as. -/
opaque Config.powerOnByte : Nat → Byte

end Sys2Proof
end

