-- ==== Sys2Proof/Machine/Params.lean ====
section
/-! DEFINITION. The making of an instance (R5, R200) and the parameters of the instance that `State.reset` shows. -/

namespace Sys2Proof

/-- Make the parameters of an instance: refused when N is outside 1 to 126 (R5, D12). -/
def Config.make? (n : Nat) (report : Bool) : Option Config :=
  if h : 1 ≤ n ∧ n ≤ 126 then some ⟨n, report, h.1, h.2⟩ else none

/-- The instance `State.reset` shows: N = 5, the capacity of the source's own worked example (95_test_vectors.md W1), and
ESC_OVERFLOW_REPORT at its default, false (R7). The spec gives N no default (DESIGN CHOICE, assumption 1). -/
def Config.standard : Config := ⟨5, false, by decide, by decide⟩

end Sys2Proof
end

