-- ==== Sys2Proof/Machine/State.lean ====
section
/-! DEFINITION. The state of one instance of DLSP-CORE (10_state.md), what the host has sent and been sent, the state at
power-on, and the reasons a step can stop. -/

namespace Sys2Proof.Machine

/-- The buffer's bytes that have been written since power-on, as (index, byte) pairs with rising indices (R21, R40). -/
abbrev Memory := List Host.Cell

/-- One instance with its host connection. `buf`, `cursor`, `st` and `completed` are the whole mutable state the spec
gives (R20); `cfg` is the instance's fixed parameters (R25); `inbox` and `outbox` are the model's own: the items the host
has sent and the block has not taken, and the response words the block has returned, each oldest first. -/
structure State where
  /-- N and ESC_OVERFLOW_REPORT (R5, R7); no step changes it. -/
  cfg : Config
  /-- The buffer (R21). -/
  buf : Memory
  /-- The count of bytes held at the front of the buffer (R22). -/
  cursor : BitVec 8
  /-- The decoder state (R23). -/
  st : DecState
  /-- The completion flag (R24). -/
  completed : Bool
  /-- What the host has sent and no command has taken yet (R71, R211). -/
  inbox : List HostItem
  /-- The response words returned so far (R70, R212). -/
  outbox : List Word16
  deriving DecidableEq, Repr

/-- The power-on state of an instance with parameters `cfg` (R33): the reset state, no buffer byte written, nothing sent. -/
def State.powerOn (cfg : Config) : State where
  cfg := cfg
  buf := []
  cursor := 0
  st := .waitHeader
  completed := false
  inbox := []
  outbox := []

/-- The machine right after power-on (R33), for the instance of `Config.standard`. -/
def State.reset : State := State.powerOn Config.standard

/-- Why a step can stop with a fault. -/
inductive Fault where
  /-- `AppendRaw` (R42) at an index that is not in the buffer (R40). Raised only by TX_SPECIAL and TX_ORDINARY taken by
  themselves with no room left; no ENCODE raises it (R102). Safe: the spec gives no such write a meaning. -/
  | noSuchIndex
  deriving DecidableEq, Repr

/-- Why a step can refuse. -/
inductive Refusal where
  /-- An instruction with no meaning yet, by its mnemonic; no arm of `exec` answers it. Safe. -/
  | notModelled (mnemonic : String)
  /-- Raised by `step`: the host sent a data beat where a command word must stand (R72, R73). Safe: the spec gives no such
  run a meaning. -/
  | strayBeat
  /-- Raised by `step`: the host sent a command word before the last data beat of the command in progress. R203: "the host
  must not start a command before the previous one has returned its response", and what the block then does "is not
  specified". Safe. -/
  | overlappedCommand
  deriving DecidableEq, Repr

end Sys2Proof.Machine
end

