-- ==== Sys2Proof/Machine/Ops.lean ====
section
/-! DEFINITION. The named operations over the buffer and the registers (R14): ResetCore, AppendRaw, AppendChecked, BufRead,
the response, and the one error path. -/

namespace Sys2Proof.Machine

/-! ## The buffer as a list of written bytes -/

/-- The byte written at an index since power-on; `none` where nothing has been written. -/
def Memory.lookup : Memory → Nat → Option Byte
  | [], _ => none
  | c :: m, k => if c.1 = k then some c.2 else Memory.lookup m k

/-- Write one byte at one index, keeping the indices rising. -/
def Memory.write : Memory → Nat → Byte → Memory
  | [], k, v => [(k, v)]
  | c :: m, k, v =>
    if k < c.1 then (k, v) :: c :: m
    else if k = c.1 then (k, v) :: m
    else c :: Memory.write m k v

/-- The canonical form: indices strictly rising. An index that is not listed holds no written byte, so no listed byte
equals what an unlisted index holds, and equal buffers are equal lists. -/
abbrev Memory.wf (m : Memory) : Prop := m.Pairwise fun c d => c.1 < d.1

/-- Every listed index is one of the buffer's, 0 to 2N+1 (R40). -/
abbrev Memory.within (m : Memory) (size : Nat) : Prop := ∀ c ∈ m, c.1 < size

/-! ## Registers and buffer -/

/-- BufRead(i) (R44). An index that nothing has written since power-on reads as the free value of that index (R33). -/
def State.bufRead (s : State) (i : Nat) : Byte := (s.buf.lookup i).getD (Config.powerOnByte i)

/-- What the host can read of the buffer: buf[0 .. cursor-1] (R32). -/
def State.content (s : State) : List Byte := (List.range s.cursor.toNat).map s.bufRead

/-- ResetCore() (R30): the buffer is not written. -/
def State.resetCore (s : State) : State := { s with cursor := 0, completed := false, st := .waitHeader }

/-- Write a byte at the cursor and count it: the common part of the two appends (R42, R43). -/
def State.push (s : State) (v : Byte) : State :=
  { s with buf := s.buf.write s.cursor.toNat v, cursor := s.cursor + 1 }

/-- Write the decoder state. -/
def State.withSt (s : State) (st : DecState) : State := { s with st := st }

/-- Write the completion flag. -/
def State.withCompleted (s : State) (c : Bool) : State := { s with completed := c }

/-- Take the host's items up to `rest`. -/
def State.withInbox (s : State) (rest : List HostItem) : State := { s with inbox := rest }

/-- Return one response word to the host (R67, R70). -/
def State.respond (s : State) (r : Response) : State := { s with outbox := s.outbox ++ [r.toWord] }

/-- What exec and the operations answer. -/
abbrev Result := Host.Outcome State Fault Refusal

/-- One operation after another; a stop of the first is the stop of both. -/
def andThen (r : Result) (f : State → Result) : Result :=
  match r with
  | .next s => f s
  | .fault e => .fault e
  | .refused e => .refused e

/-- AppendRaw(v) (R42). It carries no capacity check of its own; an index that the buffer does not have is a fault, which
no ENCODE meets (R102). -/
def appendRaw (v : Byte) (s : State) : Result :=
  if s.cursor.toNat < s.cfg.bufSize then .next (s.push v) else .fault .noSuchIndex

/-- AppendChecked(v) (R43): whether the byte was appended, and the reset state on overflow, where no byte is written. -/
def appendChecked (v : Byte) (s : State) : State × Bool :=
  if s.cfg.N ≤ s.cursor.toNat then (s.resetCore, false) else (s.push v, true)

/-- The end of a command: its state with its one response returned (R67). -/
def answer (p : State × Response) : Result := .next (p.1.respond p.2)

/-- The error path of the codec (R177, R180), the block's only counterpart of taking an exception: ResetCore and the
failure response. Nothing is saved, no mode changes and no vector is taken; there is no return from it (R181). -/
def codecError (k : Kind) (s : State) : State × Response := (s.resetCore, .fail k)

/-! ## The binary encoding of the decoder state -/

/-- The 2-bit encoding of `st` (R35). -/
def stCode : DecState → BitVec 2
  | .waitHeader => 0b00
  | .inFrame => 0b01
  | .afterEscape => 0b10

/-- The decoder state of a 2-bit code; 0b11 is no state, and a machine that held it would be stuck (R35, U8). -/
def stOfCode (c : BitVec 2) : Option DecState :=
  if c = 0b00 then some .waitHeader
  else if c = 0b01 then some .inFrame
  else if c = 0b10 then some .afterEscape
  else none

end Sys2Proof.Machine
end

