-- ==== Sys2Proof/Machine/Decoder.lean ====
section
/-! DEFINITION. The stuffing state-machine decoder (41_decoder.md): its transitions, DECODE_BYTE, DECODE_MSG, and the seven
byte classes RX_HEADER to RX_ESCAPED. -/

namespace Sys2Proof.Machine

/-- Step_WaitHeader(b) (R121). -/
def stepWaitHeader (b : Byte) (s : State) : State × Response :=
  (if b = HDR then s.resetCore.withSt .inFrame else s.resetCore, .ok 0)

/-- Step_InFrame_FTR() (R122). -/
def stepInFrameFTR (s : State) : State × Response := ((s.withSt .waitHeader).withCompleted true, .ok 0)

/-- Step_InFrame_ESC() (R123). -/
def stepInFrameESC (s : State) : State × Response := (s.withSt .afterEscape, .ok 0)

/-- Step_InFrame_HDR() (R124). -/
def stepInFrameHDR (s : State) : State × Response := codecError .corruption s

/-- Step_InFrame_Data(b) (R125). -/
def stepInFrameData (b : Byte) (s : State) : State × Response :=
  match appendChecked b s with
  | (t, true) => (t, .ok 0)
  | (t, false) => (t, .fail .overflow)

/-- What the overflow of an escaped byte is reported as: ESC_OVERFLOW_REPORT decides (R7, R126). -/
def escOverflowResponse (c : Config) : Response := if c.escOverflowReport then .fail .overflow else .ok 0

/-- Step_AfterEscape(b) (R126): an overflow resets whatever ESC_OVERFLOW_REPORT is, which decides the response only (R7). -/
def stepAfterEscape (b : Byte) (s : State) : State × Response :=
  match appendChecked (b ^^^ XORM) (s.withSt .inFrame) with
  | (t, true) => (t, .ok 0)
  | (t, false) => (t, escOverflowResponse t.cfg)

/-- Step(b), the transition function (R120). -/
def decoderStep (b : Byte) (s : State) : State × Response :=
  match s.st with
  | .waitHeader => stepWaitHeader b s
  | .inFrame =>
    if b = FTR then stepInFrameFTR s
    else if b = ESC then stepInFrameESC s
    else if b = HDR then stepInFrameHDR s
    else stepInFrameData b s
  | .afterEscape => stepAfterEscape b s

/-- DECODE_BYTE b (R120). -/
def execDecodeByte (b : Byte) (s : State) : Result := answer (decoderStep b s)

/-- DECODE_MSG's walk over its input (R129): the state it stops in, and the kind of the failing step if one failed. -/
def decodeWalk : List Byte → State → State × Option Kind
  | [], s => (s, none)
  | b :: bs, s =>
    match decoderStep b s with
    | (t, .ok _) => decodeWalk bs t
    | (t, .fail k) => (t, some k)

/-- The end of DECODE_MSG (R129): the failing step's kind, else success if the last byte closed a frame, else
TRUNCATION with the reset of 90_conflicts.md C4. -/
def decodeEnd : State × Option Kind → State × Response
  | (t, some k) => (t, .fail k)
  | (t, none) => if t.completed then (t, .ok 0) else codecError .truncation t

/-- DECODE_MSG frame (R129). -/
def execDecodeMsg (frame : List Byte) (s : State) : Result := answer (decodeEnd (decodeWalk frame s.resetCore))

/-- RX_HEADER: HDR received in WaitHeader (R121). -/
def execRxHeader (s : State) : Result := answer (stepWaitHeader HDR s)

/-- RX_NOISE: any other byte received in WaitHeader (R121). -/
def execRxNoise (b : Byte) (s : State) : Result := answer (stepWaitHeader b s)

/-- RX_FOOTER: FTR received in InFrame (R122). -/
def execRxFooter (s : State) : Result := answer (stepInFrameFTR s)

/-- RX_ESCAPE: ESC received in InFrame (R123). -/
def execRxEscape (s : State) : Result := answer (stepInFrameESC s)

/-- RX_CORRUPT: HDR received in InFrame (R124). -/
def execRxCorrupt (s : State) : Result := answer (stepInFrameHDR s)

/-- RX_DATA: any other byte received in InFrame (R125). -/
def execRxData (b : Byte) (s : State) : Result := answer (stepInFrameData b s)

/-- RX_ESCAPED: any byte received in AfterEscape (R126). -/
def execRxEscaped (b : Byte) (s : State) : Result := answer (stepAfterEscape b s)

end Sys2Proof.Machine
end

