-- ==== Sys2Proof/Machine/Encoder.lean ====
section
/-! DEFINITION. The byte-stuffing encoder (40_encoder.md): ENCODE, and its two byte classes TX_SPECIAL and TX_ORDINARY. -/

namespace Sys2Proof.Machine

/-- What ENCODE appends for a byte of the special set: ESC, then the byte with bit 5 flipped (R62, R100). -/
def emitSpecial (x : Byte) (s : State) : Result := andThen (appendRaw ESC s) (appendRaw (x ^^^ XORM))

/-- What ENCODE appends for one payload byte (R100). -/
def emitByte (x : Byte) (s : State) : Result := if Special x then emitSpecial x s else appendRaw x s

/-- ENCODE's walk over the payload, first byte first (R100). -/
def encodeWalk : List Byte → State → Result
  | [], s => .next s
  | x :: xs, s => andThen (emitByte x s) (encodeWalk xs)

/-- ENCODE's frame: HDR, the escaped payload, FTR (R100). -/
def encodeFrame (raw : List Byte) (s : State) : Result :=
  andThen (andThen (appendRaw HDR s) (encodeWalk raw)) (appendRaw FTR)

/-- ENCODE raw (R100): the reset comes first and stands even when the payload is too long (R103). -/
def execEncode (raw : List Byte) (s : State) : Result :=
  if s.resetCore.cfg.N < raw.length then answer (codecError .overflow s)
  else andThen (encodeFrame raw s.resetCore) fun t => answer (t.withCompleted true, .ok 0)

/-- TX_SPECIAL (R62): one payload byte of the special set. It is a part of ENCODE and returns no response (R67). -/
def execTxSpecial (b : Byte) (s : State) : Result := emitSpecial b s

/-- TX_ORDINARY (R62): one payload byte outside the special set. It is a part of ENCODE and returns no response (R67). -/
def execTxOrdinary (b : Byte) (s : State) : Result := appendRaw b s

end Sys2Proof.Machine
end

