-- ==== Sys2Proof/Machine/Illegal.lean ====
section
/-! DEFINITION. The illegal command words (R72, R176): FAIL(ILLEGAL), no state changed. -/

namespace Sys2Proof.Machine

/-- What every illegal word does (R176). -/
def rejectWord (s : State) : Result := answer (s, .fail .illegal)

/-- A word with OP = 0x0 (R72). -/
def execReservedOp0 (_arg : BitVec 12) (s : State) : Result := rejectWord s

/-- A word with OP = 0x8 to 0xF (R72). -/
def execReservedOp8F (_low : BitVec 3) (_arg : BitVec 12) (s : State) : Result := rejectWord s

/-- RESET, IS_COMPLETED or SIZE with ARG ≠ 0 (R72). -/
def execIllegalNoArg (_op : NoArgOp) (_arg : BitVec 12) (s : State) : Result := rejectWord s

/-- DECODE_BYTE or READ_BYTE with ARG[11:8] ≠ 0 (R72). -/
def execIllegalByteArg (_op : ByteArgOp) (_hi : BitVec 4) (_lo : Byte) (s : State) : Result := rejectWord s

end Sys2Proof.Machine
end

