-- ==== Sys2Proof/Machine/Manager.lean ====
section
/-! DEFINITION. The frame-delimited buffer manager (42_buffer_manager.md): RESET, IS_COMPLETED, SIZE, READ_BYTE. -/

namespace Sys2Proof.Machine

/-- RESET (R150). -/
def execReset (s : State) : Result := answer (s.resetCore, .ok 0)

/-- IS_COMPLETED (R151). -/
def execIsCompleted (s : State) : Result := answer (s, .ok (flagByte s.completed))

/-- SIZE (R152). -/
def execSize (s : State) : Result := answer (s, .ok s.cursor)

/-- Whether READ_BYTE may read index `i`: below the cursor (R153), and an index the buffer has, since "indices above 2N+1
fail the same way" (R153). The second test matters only where cursor > 2N+2, which no run reaches (R31 INV4). -/
abbrev State.readable (s : State) (i : Nat) : Prop := i < s.cursor.toNat ∧ i < s.cfg.bufSize

/-- READ_BYTE i (R153). -/
def execReadByte (i : Byte) (s : State) : Result :=
  if s.readable i.toNat then answer (s, .ok (s.bufRead i.toNat)) else answer (s, .fail .range)

end Sys2Proof.Machine
end

