-- ==== Sys2Proof/Machine/Dispatch.lean ====
section
/-! DEFINITION. The meaning of every instruction, one arm each. -/

namespace Sys2Proof.Machine

def exec (i : Instr) (s : State) : Host.Outcome State Fault Refusal :=
  match i with
  -- commands (R69)
  | .reset => Sys2Proof.Machine.execReset s
  | .encode raw => Sys2Proof.Machine.execEncode raw s
  | .decodeMsg frame => Sys2Proof.Machine.execDecodeMsg frame s
  | .decodeByte b => Sys2Proof.Machine.execDecodeByte b s
  | .isCompleted => Sys2Proof.Machine.execIsCompleted s
  | .size => Sys2Proof.Machine.execSize s
  | .readByte k => Sys2Proof.Machine.execReadByte k s
  -- illegal command words (R72)
  | .reservedOp0 arg => Sys2Proof.Machine.execReservedOp0 arg s
  | .reservedOp8F low arg => Sys2Proof.Machine.execReservedOp8F low arg s
  | .illegalNoArg op arg => Sys2Proof.Machine.execIllegalNoArg op arg s
  | .illegalByteArg op hi lo => Sys2Proof.Machine.execIllegalByteArg op hi lo s
  -- the decoder's byte classes (R65)
  | .rxHeader => Sys2Proof.Machine.execRxHeader s
  | .rxNoise b => Sys2Proof.Machine.execRxNoise b s
  | .rxFooter => Sys2Proof.Machine.execRxFooter s
  | .rxEscape => Sys2Proof.Machine.execRxEscape s
  | .rxCorrupt => Sys2Proof.Machine.execRxCorrupt s
  | .rxData b => Sys2Proof.Machine.execRxData b s
  | .rxEscaped b => Sys2Proof.Machine.execRxEscaped b s
  -- the encoder's byte classes (R62)
  | .txSpecial b => Sys2Proof.Machine.execTxSpecial b s
  | .txOrdinary b => Sys2Proof.Machine.execTxOrdinary b s

end Sys2Proof.Machine
end

