-- ==== Sys2Proof/Machine/Receive.lean ====
section
/-! DEFINITION. What the block does while the host's items hold no complete command, and placing items for the block to
take. -/

namespace Sys2Proof.Machine

/-- No complete command at the head of the inbox. The block waits for a word or for the missing beats, holding its state
(R71, R187, R211). A stray beat and a word among beats are runs the spec gives no meaning (R203, U6). -/
def receiveError (e : DecodeError) (s : State) : Result :=
  match e with
  | .empty => .next s
  | .missingBeats => .next s
  | .strayBeat => .refused .strayBeat
  | .wordAmongBeats => .refused .overlappedCommand

/-- Items put before what the host has sent. -/
def placeItems (items : List HostItem) (s : State) : State := s.withInbox (items ++ s.inbox)

/-- A received byte put before what the host has sent, as the DECODE_BYTE that delivers it (R120), with the decoder in the
state that the byte's row of the opcode table names. -/
def placeRxByte (b : Byte) (s : State) : State :=
  placeItems [.word (cmdWord 0x4 (byteArg 0 b))] (s.withSt (tableRxState b))

end Sys2Proof.Machine
end

