-- ==== Sys2Proof/Machine/Step.lean ====
section
/-! DEFINITION. One step of the machine: the next complete command the host has sent, executed whole (R50, R52, R71). -/

namespace Sys2Proof.Machine

/-- One step: the command at the head of the inbox is taken with its data beats and executed (R71). While no complete
command is there the block holds its state (R187, R211); an item stream that breaks the host's obligations is refused
(R203). -/
def step (s : State) : Host.Outcome State Fault Refusal :=
  match decode s.inbox with
  | .ok i rest => exec i (s.withInbox rest)
  | .error e => receiveError e s

/-- `s` with a row of the opcode table placed where the next step takes it. A command word goes before what the host has
sent, with its data beats. An RXBYTE row is a received byte in a decoder state, so the byte comes by DECODE_BYTE and the
decoder is put in the state its row is read in (`tableRxState`). -/
def State.withFetchWord (s : State) (nbits w : Nat) : State :=
  if nbits = 8 then placeRxByte (BitVec.ofNat 8 w) s else placeItems (tableItems w) s

end Sys2Proof.Machine
end

