-- ==== Sys2Proof/Machine/Instances.lean ====
section
/-! DEFINITION. Several instances (R185, D21): the product of single-instance machines, each with its own host sequence. -/

namespace Sys2Proof.Machine

/-- Put the next state of instance `k` in its place. -/
def putInstance (k : Nat) (ss : List State) (r : Result) : Host.Outcome (List State) Fault Refusal :=
  match r with
  | .next s => .next (ss.set k s)
  | .fault e => .fault e
  | .refused e => .refused e

/-- One step of instance `k`; a number that no instance has moves nothing. -/
def stepInstance (k : Nat) (ss : List State) : Host.Outcome (List State) Fault Refusal :=
  match ss[k]? with
  | some s => putInstance k ss (step s)
  | none => .next ss

end Sys2Proof.Machine
end

