-- ==== Sys2Proof/Machine/Sequence.lean ====
section
/-! DEFINITION. Host sequences: commands one after another, and the expansions of 30_encoding.md R75. -/

namespace Sys2Proof.Machine

/-- Commands one after another, in the order the host issues them (R52). -/
def execAll : List Instr → State → Result
  | [], s => .next s
  | i :: is, s => andThen (exec i s) (execAll is)

/-- The response of the last command. -/
def State.lastResponse (s : State) : Option Word16 := s.outbox.getLast?

/-- The CONTENTS pseudo-instruction for a SIZE response of n (R75): READ_BYTE 0 to READ_BYTE n-1. -/
def readAll (n : Nat) : List Instr := (List.range n).map fun k => .readByte (BitVec.ofNat 8 k)

/-- The CONTENTS pseudo-instruction (R75): SIZE giving n, then READ_BYTE 0 to READ_BYTE n-1. -/
def contentsSequence (s : State) : Result :=
  andThen (exec .size s) fun t =>
    execAll (readAll ((t.lastResponse.map respData).getD 0).toNat) t

/-- The DECODE_STREAM pseudo-instruction (R75): DECODE_BYTE and IS_COMPLETED for each byte. -/
def decodeStream : List Byte → List Instr
  | [] => []
  | b :: bs => .decodeByte b :: .isCompleted :: decodeStream bs

/-- A stream decode: DECODE_BYTE for each byte (R131). -/
def feedBytes (bs : List Byte) (s : State) : Result := execAll (bs.map .decodeByte) s

/-- The completion events of a stream decode (R131): after each DECODE_BYTE that leaves `completed` true, the content the
host can read. -/
def completionEvents : List Byte → State → List (List Byte)
  | [], _ => []
  | b :: bs, s =>
    match exec (.decodeByte b) s with
    | .next t => (if t.completed then [t.content] else []) ++ completionEvents bs t
    | .fault _ => []
    | .refused _ => []

/-- A host that issues DECODE_BYTE for each byte until one returns OK = 0 (R75): where it stops, and the failing response
word if there is one. -/
def hostFeed : List Byte → State → State × Option Word16
  | [], s => (s, none)
  | b :: bs, s =>
    match exec (.decodeByte b) s with
    | .next t =>
      match t.lastResponse with
      | some w => if respOk w then hostFeed bs t else (t, some w)
      | none => (t, none)
    | .fault _ => (s, none)
    | .refused _ => (s, none)

end Sys2Proof.Machine
end

