-- ==== Sys2Proof/Safety.lean ====
section
/-! DEFINITION. The invariants of 10_state.md R31, what a host can tell apart (R32), and what a failed codec operation
leaves (R177), in the terms the statements use. -/

namespace Sys2Proof.Machine

/-- The invariants R31 gives every reachable state, and the canonical form of the buffer. -/
structure Invariants (s : State) : Prop where
  /-- INV1: inside a frame, cursor ≤ N and no frame is announced. -/
  decoding : s.st ≠ .waitHeader → s.cursor.toNat ≤ s.cfg.N ∧ s.completed = false
  /-- INV2: in WaitHeader with no result, the buffer is empty. -/
  idle : s.st = .waitHeader → s.completed = false → s.cursor = 0
  /-- INV3: a result is announced in WaitHeader only. -/
  announced : s.completed = true → s.st = .waitHeader
  /-- INV4: the cursor counts bytes of the buffer. -/
  bounded : s.cursor.toNat ≤ s.cfg.bufSize
  /-- INV5, as far as one state shows it: every byte below the cursor has been written since power-on. -/
  written : ∀ k < s.cursor.toNat, (s.buf.lookup k).isSome
  /-- The buffer is in canonical form. -/
  canonical : s.buf.wf
  /-- The buffer lists no index it does not have. -/
  inside : s.buf.within s.cfg.bufSize

/-- `n` steps, one after another (R52). -/
def runSteps : Nat → State → Result
  | 0, s => .next s
  | n + 1, s => andThen (step s) (runSteps n)

/-- The same registers and the same parameters: everything but the bytes of the buffer and the host connection. -/
structure SameRegisters (s t : State) : Prop where
  cfg : s.cfg = t.cfg
  cursor : s.cursor = t.cursor
  st : s.st = t.st
  completed : s.completed = t.completed

/-- Two states that differ at most in buf[k] for k ≥ cursor (R32). -/
structure SameButStale (s t : State) : Prop where
  registers : SameRegisters s t
  below : ∀ k < s.cursor.toNat, s.bufRead k = t.bufRead k
  inbox : s.inbox = t.inbox
  outbox : s.outbox = t.outbox

/-- (st, cursor, completed) = (WaitHeader, 0, false), which every codec failure leaves (R177). -/
def AtReset (s : State) : Prop := s.st = .waitHeader ∧ s.cursor = 0 ∧ s.completed = false

/-- The host has kept its obligations so far (R203, R211): no data beat where a command word must stand, and no command
word before the last beat of the command in progress. -/
def HostKeepsOrder (s : State) : Prop :=
  decode s.inbox ≠ .error .strayBeat ∧ decode s.inbox ≠ .error .wordAmongBeats

/-- `t` is `s` after one command that returned the response word `w`: the parameters are as they were, nothing was taken
from the host's items, and `w` is the one response returned. -/
structure Answered (s t : State) (w : Word16) : Prop where
  cfg : t.cfg = s.cfg
  inbox : t.inbox = s.inbox
  outbox : t.outbox = s.outbox ++ [w]

end Sys2Proof.Machine
end

