-- ==== Sys2Proof/Certificates/Slice0/Obligations.lean ====
section
/-! DEFINITION. The statements for the provers. Each docstring names the rule of spec/ it formalises. The response words
in them are laid out, and the kinds of failure numbered, as R70 and R171 say, which are the spec's own choices (D4 and D5
of 92_eei_decisions.md); where a statement rests on another choice of the spec or of the model, its docstring says so. -/

open Sys2Proof
open Sys2Proof.Machine

/-! ## Power-on and parameters -/

/-- R33: power-on is the reset state, and every byte of the buffer is unspecified: it reads as the free value of its
index. The cursor and the flag at power-on are the spec's own choice (D9); the free value is the model's (assumption
2). -/
def Obligations.PowerOnIsResetState : Prop :=
  ∀ c : Config, let s := State.powerOn c
    s.cfg = c ∧ s.cursor = 0 ∧ s.completed = false ∧ s.st = .waitHeader ∧ ∀ i, s.bufRead i = Config.powerOnByte i

/-- R5 and R6: an instance is made exactly for 1 ≤ N ≤ 126, with the parameters given, and has 2N + 2 bytes of buffer,
4 to 254. That no instance exists outside the range is the spec's own choice (D12). -/
def Obligations.InstanceMadeForCapacityInRange : Prop :=
  (∀ n report, (∃ c, Config.make? n report = some c) ↔ 1 ≤ n ∧ n ≤ 126) ∧
  (∀ n report c, Config.make? n report = some c → c.N = n ∧ c.escOverflowReport = report) ∧
  (∀ c : Config, c.bufSize = 2 * c.N + 2 ∧ 4 ≤ c.bufSize ∧ c.bufSize ≤ 254)

/-- R25: no command, and no step, changes the parameters of the instance. That the parameters stand in State is the
model's choice (assumption 5). -/
def Obligations.ParametersNeverChange : Prop :=
  (∀ i s t, exec i s = .next t → t.cfg = s.cfg) ∧ (∀ s t, step s = .next t → t.cfg = s.cfg)

/-- R35: the 2-bit encoding of the decoder state, and that 0b11 encodes none. The codes are the spec's own choice
(D11). -/
def Obligations.DecoderStateCodes : Prop :=
  stCode .waitHeader = 0b00 ∧ stCode .inFrame = 0b01 ∧ stCode .afterEscape = 0b10 ∧ stOfCode 0b11 = none ∧
  ∀ d, stOfCode (stCode d) = some d

/-! ## The buffer manager -/

/-- R150: RESET is the word 0x1000 alone; it leaves the reset state, does not write the buffer, and returns OK. -/
def Obligations.ResetCommandResult : Prop :=
  encode .reset = .cmd16 [.word 0x1000] ∧
  ∀ s, exec .reset s =
    .next { s with cursor := 0, completed := false, st := .waitHeader, outbox := s.outbox ++ [0x8000] }

/-- R151: IS_COMPLETED returns the flag in DATA and changes nothing. That it writes nothing is the spec's own choice
(D8). -/
def Obligations.IsCompletedReadsFlag : Prop :=
  ∀ s, exec .isCompleted s =
    .next { s with outbox := s.outbox ++ [if s.completed = true then 0x8001 else 0x8000] }

/-- R152: SIZE returns the cursor in DATA and changes nothing. That it writes nothing is the spec's own choice (D8). -/
def Obligations.SizeReadsCursor : Prop :=
  ∀ s, ∃ w : Word16, w.toNat = 0x8000 + s.cursor.toNat ∧
    exec .size s = .next { s with outbox := s.outbox ++ [w] }

/-- R153: READ_BYTE returns buf[i] below the cursor and FAIL(RANGE) at or above it, and changes nothing. The premise
is INV4 of R31, which every reachable state meets (InvariantsHoldAtPowerOn, StepKeepsInvariants). The failure is the
spec's own choice (D7). -/
def Obligations.ReadByteReadsContentOnly : Prop :=
  ∀ (s : State) (i : Byte), s.cursor.toNat ≤ s.cfg.bufSize →
    (i.toNat < s.cursor.toNat → ∃ w : Word16, w.toNat = 0x8000 + (s.bufRead i.toNat).toNat ∧
      exec (.readByte i) s = .next { s with outbox := s.outbox ++ [w] }) ∧
    (s.cursor.toNat ≤ i.toNat → exec (.readByte i) s = .next { s with outbox := s.outbox ++ [0x4000] })

/-- R153's corner cases in every state, reachable or not: an index at or above the cursor, or above 2N+1, returns
FAIL(RANGE). Where the cursor is above 2N+2 this is the model's reading (assumption 3). -/
def Obligations.ReadByteOutsideContentFailsRange : Prop :=
  ∀ (s : State) (i : Byte), (s.cursor.toNat ≤ i.toNat ∨ s.cfg.bufSize ≤ i.toNat) →
    exec (.readByte i) s = .next { s with outbox := s.outbox ++ [0x4000] }

/-- R75, CONTENTS: SIZE and the READ_BYTEs after it return the size and then the bytes of the content in order, and change
nothing. The premise is INV4 of R31. -/
def Obligations.ContentsSequenceReturnsContent : Prop :=
  ∀ s : State, s.cursor.toNat ≤ s.cfg.bufSize →
    contentsSequence s = .next { s with
      outbox := s.outbox ++ (Response.ok s.cursor).toWord :: s.content.map fun b => (Response.ok b).toWord }

/-! ## Responses and illegal words -/

/-- R70 and R171: every response word has OK in bit 15, the kind in bits 14 to 12, zeros in bits 11 to 8 and DATA in bits
7 to 0; the kind is 0 exactly when OK is 1, DATA is 0 for a failure, and the kinds have the codes 1 to 5. -/
def Obligations.ResponseWordLayout : Prop :=
  (∀ d : Byte, (Response.ok d).toWord.extractLsb' 15 1 = 1 ∧ (Response.ok d).toWord.extractLsb' 12 3 = 0 ∧
    (Response.ok d).toWord.extractLsb' 8 4 = 0 ∧ (Response.ok d).toWord.extractLsb' 0 8 = d) ∧
  (∀ k : Kind, (Response.fail k).toWord.extractLsb' 15 1 = 0 ∧ (Response.fail k).toWord.extractLsb' 12 3 = k.code ∧
    k.code ≠ 0 ∧ (Response.fail k).toWord.extractLsb' 8 4 = 0 ∧ (Response.fail k).toWord.extractLsb' 0 8 = 0) ∧
  Kind.overflow.code = 1 ∧ Kind.corruption.code = 2 ∧ Kind.truncation.code = 3 ∧ Kind.range.code = 4 ∧
  Kind.illegal.code = 5

/-- R67: a command, an illegal word or a received byte that completes returns exactly one response word; what ENCODE
appends for one payload byte returns none. That a received byte taken by itself returns its step's response, and a TX
row none, is the model's choice (assumption 9). -/
def Obligations.OneResponsePerCommand : Prop :=
  ∀ i s t, exec i s = .next t →
    ((∀ b, i ≠ .txSpecial b) → (∀ b, i ≠ .txOrdinary b) → ∃ r : Response, t.outbox = s.outbox ++ [r.toWord]) ∧
    (((∃ b, i = .txSpecial b) ∨ ∃ b, i = .txOrdinary b) → t.outbox = s.outbox)

/-- R176: the four illegal rows of the opcode table return FAIL(ILLEGAL) and change nothing. The answer is the spec's
own choice (D6). -/
def Obligations.IllegalRowsAnswerIllegal : Prop :=
  ∀ s : State,
    (∀ a, exec (.reservedOp0 a) s = .next { s with outbox := s.outbox ++ [0x5000] }) ∧
    (∀ l a, exec (.reservedOp8F l a) s = .next { s with outbox := s.outbox ++ [0x5000] }) ∧
    (∀ op a, exec (.illegalNoArg op a) s = .next { s with outbox := s.outbox ++ [0x5000] }) ∧
    (∀ op h l, exec (.illegalByteArg op h l) s = .next { s with outbox := s.outbox ++ [0x5000] })

/-- R72: a word with OP 0x0 or 0x8 to 0xF, a RESET, IS_COMPLETED or SIZE word with ARG ≠ 0, and a DECODE_BYTE or
READ_BYTE word with ARG[11:8] ≠ 0 take no data beats, change no state and return FAIL(ILLEGAL). The answer is the
spec's own choice (D6). -/
def Obligations.IllegalWordsChangeNothing : Prop :=
  ∀ (s : State) (w : Word16) (rest : List HostItem), s.inbox = .word w :: rest →
    (opOf w = 0x0 ∨ 8 ≤ (opOf w).toNat ∨
      ((opOf w = 0x1 ∨ opOf w = 0x5 ∨ opOf w = 0x6) ∧ argOf w ≠ 0) ∨
      ((opOf w = 0x4 ∨ opOf w = 0x7) ∧ argHiOf w ≠ 0)) →
    step s = .next { s with inbox := rest, outbox := s.outbox ++ [0x5000] }

/-! ## The encoder -/

/-- R62 to R64: a frame begins with HDR and ends with FTR, its length is 2 + len(p) + s(p), at most 2·len(p) + 2, no byte
strictly between is HDR or FTR, and every ESC between is followed by 0x5B, 0x5C or 0x5D. -/
def Obligations.FrameShape : Prop :=
  ∀ p : List Byte,
    frame p = [HDR] ++ escape p ++ [FTR] ∧
    (frame p).length = 2 + p.length + specialCount p ∧ (frame p).length ≤ 2 * p.length + 2 ∧
    HDR ∉ escape p ∧ FTR ∉ escape p ∧
    ∀ a b, escape p = a ++ ESC :: b → ∃ x r, b = x :: r ∧ (x = 0x5B ∨ x = 0x5C ∨ x = 0x5D)

/-- R100 and R101: ENCODE of a payload of at most N bytes leaves the frame as the content, `completed` true and
WaitHeader, and returns OK; the buffer above the frame is not written. -/
def Obligations.EncodeLeavesFrame : Prop :=
  ∀ (s : State) (raw : List Byte), raw.length ≤ s.cfg.N →
    ∃ t, exec (.encode raw) s = .next t ∧ Answered s t 0x8000 ∧
      t.content = frame raw ∧ t.cursor.toNat = 2 + raw.length + specialCount raw ∧
      t.completed = true ∧ t.st = .waitHeader ∧
      ∀ k, t.cursor.toNat ≤ k → t.bufRead k = s.bufRead k

/-- R103: an ENCODE of more than N bytes looks at none of them, writes no byte, and leaves exactly the reset state with
FAIL(OVERFLOW). -/
def Obligations.EncodeTooLongOnlyResets : Prop :=
  ∀ (s : State) (raw : List Byte), s.cfg.N < raw.length →
    exec (.encode raw) s =
      .next { s with cursor := 0, completed := false, st := .waitHeader, outbox := s.outbox ++ [0x1000] }

/-- R105: ENCODE always answers; it fails if and only if the payload is longer than N, and then SIZE is 0. -/
def Obligations.EncodeFailsIffTooLong : Prop :=
  ∀ (s : State) (raw : List Byte), ∃ t w, exec (.encode raw) s = .next t ∧ t.outbox = s.outbox ++ [w] ∧
    (respOk w = false ↔ s.cfg.N < raw.length) ∧ (respOk w = false → t.cursor = 0)

/-- R102: no ENCODE, from any state, writes outside the buffer: every byte it writes is at an index of the buffer. -/
def Obligations.EncodeStaysInBuffer : Prop :=
  ∀ (s t : State) (raw : List Byte), exec (.encode raw) s = .next t →
    t.cursor.toNat ≤ s.cfg.bufSize ∧ ∀ k, s.cfg.bufSize ≤ k → t.bufRead k = s.bufRead k

/-- R62 and R42: TX_SPECIAL appends ESC and the byte with bit 5 flipped, TX_ORDINARY the byte itself, where the buffer
has room; nothing else changes. That a TX row is taken by itself, and returns no response, is the model's choice
(assumption 9). -/
def Obligations.TxRowsAppendEscapedByte : Prop :=
  ∀ (s : State) (b : Byte),
    (Special b → s.cursor.toNat + 2 ≤ s.cfg.bufSize → ∃ t, exec (.txSpecial b) s = .next t ∧
      t.content = s.content ++ [0x7C, b ^^^ 0x20] ∧ t.cursor.toNat = s.cursor.toNat + 2 ∧
      t = { s with buf := t.buf, cursor := t.cursor } ∧
      ∀ k, k ≠ s.cursor.toNat → k ≠ s.cursor.toNat + 1 → t.bufRead k = s.bufRead k) ∧
    (¬ Special b → s.cursor.toNat + 1 ≤ s.cfg.bufSize → ∃ t, exec (.txOrdinary b) s = .next t ∧
      t.content = s.content ++ [b] ∧ t.cursor.toNat = s.cursor.toNat + 1 ∧
      t = { s with buf := t.buf, cursor := t.cursor } ∧
      ∀ k, k ≠ s.cursor.toNat → t.bufRead k = s.bufRead k)

/-- The model's stop (assumption 4): TX_SPECIAL and TX_ORDINARY, taken by themselves where the buffer has no room for what
they append, fault. No ENCODE meets this (EncodeFailsIffTooLong). -/
def Obligations.TxRowsFaultOutsideBuffer : Prop :=
  ∀ (s : State) (b : Byte),
    (s.cfg.bufSize < s.cursor.toNat + 2 → exec (.txSpecial b) s = .fault .noSuchIndex) ∧
    (s.cfg.bufSize < s.cursor.toNat + 1 → exec (.txOrdinary b) s = .fault .noSuchIndex)

/-- ENCODE of a payload that fits is HDR, the byte classes of the payload one after another, and FTR (R100, the TXBYTE
rows of the opcode table). That the rows are instructions of their own is the model's choice (assumption 9). -/
def Obligations.EncodeRunsTxRows : Prop :=
  ∀ (s : State) (raw : List Byte), raw.length ≤ s.cfg.N →
    ∃ t, execAll (raw.map classifyTx) (s.resetCore.push HDR) = .next t ∧
      exec (.encode raw) s = .next (((t.push FTR).withCompleted true).respond (.ok 0))

/-- R104 and R204: after an ENCODE, from any state, bytes with no HDR among them close no frame, so a frame that was being
decoded byte by byte is lost. -/
def Obligations.EncodeAbandonsFrame : Prop :=
  ∀ (s t : State) (raw bs : List Byte), exec (.encode raw) s = .next t → HDR ∉ bs →
    t.st = .waitHeader ∧ completionEvents bs t = []

/-! ## The decoder -/

/-- What R121 says of a byte in WaitHeader: every byte resets, RX_HEADER then opens a frame and RX_NOISE does not, and
both return OK. That the two rows are taken by themselves, and do this in every decoder state, is the model's choice
(assumption 9). -/
def Obligations.RxWaitHeaderRows : Prop :=
  ∀ s : State,
    exec .rxHeader s =
      .next { s with cursor := 0, completed := false, st := .inFrame, outbox := s.outbox ++ [0x8000] } ∧
    ∀ b, b ≠ HDR → exec (.rxNoise b) s =
      .next { s with cursor := 0, completed := false, st := .waitHeader, outbox := s.outbox ++ [0x8000] }

/-- What R122, R123 and R124 say of a byte in InFrame: RX_FOOTER closes the frame, RX_ESCAPE announces an escaped
byte, RX_CORRUPT resets with FAIL(CORRUPTION); none writes the buffer or looks at the cursor. That the three rows are
taken by themselves, and do this in every decoder state, is the model's choice (assumption 9). -/
def Obligations.RxInFrameSpecialRows : Prop :=
  ∀ s : State,
    exec .rxFooter s = .next { s with st := .waitHeader, completed := true, outbox := s.outbox ++ [0x8000] } ∧
    exec .rxEscape s = .next { s with st := .afterEscape, outbox := s.outbox ++ [0x8000] } ∧
    exec .rxCorrupt s =
      .next { s with cursor := 0, completed := false, st := .waitHeader, outbox := s.outbox ++ [0x2000] }

/-- What R125 says of a byte in InFrame: RX_DATA appends its byte below the capacity, and otherwise resets with
FAIL(OVERFLOW) and writes no byte. That the row is taken by itself, and does this in every decoder state, which an
append then keeps, is the model's choice (assumption 9). -/
def Obligations.RxDataAppendsOrOverflows : Prop :=
  ∀ (s : State) (b : Byte), ¬ Special b →
    (s.cursor.toNat < s.cfg.N → ∃ t, exec (.rxData b) s = .next t ∧ Answered s t 0x8000 ∧
      t.content = s.content ++ [b] ∧ t.cursor.toNat = s.cursor.toNat + 1 ∧ t.st = s.st ∧ t.completed = s.completed ∧
      ∀ k, k ≠ s.cursor.toNat → t.bufRead k = s.bufRead k) ∧
    (s.cfg.N ≤ s.cursor.toNat → exec (.rxData b) s =
      .next { s with cursor := 0, completed := false, st := .waitHeader, outbox := s.outbox ++ [0x1000] })

/-- What R126 says of a byte in AfterEscape: RX_ESCAPED appends its byte with bit 5 flipped and goes to InFrame; at
the capacity it resets, reporting OVERFLOW only when ESC_OVERFLOW_REPORT is true. That the row is taken by itself, and
does this in every decoder state, is the model's choice (assumption 9). -/
def Obligations.RxEscapedAppendsOrResets : Prop :=
  ∀ (s : State) (b : Byte),
    (s.cursor.toNat < s.cfg.N → ∃ t, exec (.rxEscaped b) s = .next t ∧ Answered s t 0x8000 ∧
      t.content = s.content ++ [b ^^^ 0x20] ∧ t.cursor.toNat = s.cursor.toNat + 1 ∧ t.st = .inFrame ∧
      t.completed = s.completed ∧ ∀ k, k ≠ s.cursor.toNat → t.bufRead k = s.bufRead k) ∧
    (s.cfg.N ≤ s.cursor.toNat → exec (.rxEscaped b) s =
      .next { s with cursor := 0, completed := false, st := .waitHeader,
                     outbox := s.outbox ++ [if s.cfg.escOverflowReport = true then 0x1000 else 0x8000] })

/-- R120 and R65: DECODE_BYTE does what the one byte class of its byte in the current decoder state does. That the
rows are instructions of their own is the model's choice (assumption 9). -/
def Obligations.DecodeByteRunsItsClass : Prop :=
  ∀ (s : State) (b : Byte), exec (.decodeByte b) s = exec (classifyRx s.st b) s

/-- R127: the complete transition function of DECODE_BYTE. The premise is INV1 of R31: inside a frame `completed` is
false. -/
def Obligations.DecodeByteTransitionTable : Prop :=
  ∀ (s : State) (b : Byte), (s.st ≠ .waitHeader → s.completed = false) →
    ∃ t w, exec (.decodeByte b) s = .next t ∧ Answered s t w ∧
      (s.st = .waitHeader → b = 0x7B → t.st = .inFrame ∧ t.cursor = 0 ∧ t.completed = false ∧ t.buf = s.buf ∧ w = 0x8000) ∧
      (s.st = .waitHeader → b ≠ 0x7B → AtReset t ∧ t.buf = s.buf ∧ w = 0x8000) ∧
      (s.st = .inFrame → b = 0x7D →
        t.st = .waitHeader ∧ t.cursor = s.cursor ∧ t.completed = true ∧ t.buf = s.buf ∧ w = 0x8000) ∧
      (s.st = .inFrame → b = 0x7C →
        t.st = .afterEscape ∧ t.cursor = s.cursor ∧ t.completed = false ∧ t.buf = s.buf ∧ w = 0x8000) ∧
      (s.st = .inFrame → b = 0x7B → AtReset t ∧ t.buf = s.buf ∧ w = 0x2000) ∧
      (s.st = .inFrame → ¬ Special b → s.cursor.toNat < s.cfg.N →
        t.st = .inFrame ∧ t.cursor.toNat = s.cursor.toNat + 1 ∧ t.completed = false ∧
        t.bufRead s.cursor.toNat = b ∧ (∀ k, k ≠ s.cursor.toNat → t.bufRead k = s.bufRead k) ∧ w = 0x8000) ∧
      (s.st = .inFrame → ¬ Special b → s.cfg.N ≤ s.cursor.toNat → AtReset t ∧ t.buf = s.buf ∧ w = 0x1000) ∧
      (s.st = .afterEscape → s.cursor.toNat < s.cfg.N →
        t.st = .inFrame ∧ t.cursor.toNat = s.cursor.toNat + 1 ∧ t.completed = false ∧
        t.bufRead s.cursor.toNat = b ^^^ 0x20 ∧ (∀ k, k ≠ s.cursor.toNat → t.bufRead k = s.bufRead k) ∧ w = 0x8000) ∧
      (s.st = .afterEscape → s.cfg.N ≤ s.cursor.toNat → AtReset t ∧ t.buf = s.buf ∧
        w = if s.cfg.escOverflowReport = true then 0x1000 else 0x8000)

/-- R7: ESC_OVERFLOW_REPORT changes only the response of the overflow that follows an escape byte, never the state
that any byte leaves: false reports success there, true reports OVERFLOW. The parameter is the spec's own choice
(D10). -/
def Obligations.EscOverflowReportChangesOnlyResponse : Prop :=
  ∀ (s t u : State) (b : Byte) (c : Config), c.N = s.cfg.N →
    exec (.decodeByte b) s = .next t → exec (.decodeByte b) { s with cfg := c } = .next u →
    u = { t with cfg := c, outbox := u.outbox } ∧
    (¬ (s.st = .afterEscape ∧ s.cfg.N ≤ s.cursor.toNat) → u.outbox = t.outbox) ∧
    (s.st = .afterEscape → s.cfg.N ≤ s.cursor.toNat →
      u.outbox = s.outbox ++ [if c.escOverflowReport = true then 0x1000 else 0x8000])

/-- R75, third expansion: DECODE_MSG has the final state and the response of RESET, then DECODE_BYTE for each byte until one
fails, then, if none failed, the flag as IS_COMPLETED reads it, and a RESET when it is false (TRUNCATION). -/
def Obligations.DecodeMsgEqualsHostSequence : Prop :=
  ∀ (s : State) (f : List Byte), ∃ r t u failed w,
    exec .reset s = .next r ∧ hostFeed f r = (u, failed) ∧
    exec (.decodeMsg f) s = .next t ∧ Answered s t w ∧
    (∀ k, failed = some k → w = k ∧ SameRegisters t u ∧ t.buf = u.buf) ∧
    (failed = none → u.completed = true → w = 0x8000 ∧ SameRegisters t u ∧ t.buf = u.buf) ∧
    (failed = none → u.completed = false → w = 0x3000 ∧ AtReset t ∧ t.buf = u.buf)

/-- R130: DECODE_MSG always answers, and succeeds exactly when no step fails and the last byte of the input is a footer
taken in InFrame. -/
def Obligations.DecodeMsgSucceedsIffEndsOnFooter : Prop :=
  ∀ (s : State) (f : List Byte), ∃ t w, exec (.decodeMsg f) s = .next t ∧ Answered s t w ∧
    (respOk w = true ↔ ∃ g u, f = g ++ [FTR] ∧ hostFeed g s.resetCore = (u, none) ∧ u.st = .inFrame)

/-- R106: DECODE_MSG of what ENCODE leaves gives the payload back, for every payload of at most N bytes. -/
def Obligations.RoundTripRestoresPayload : Prop :=
  ∀ (s : State) (p : List Byte), p.length ≤ s.cfg.N →
    ∃ t u, exec (.encode p) s = .next t ∧ exec (.decodeMsg t.content) t = .next u ∧
      Answered s t 0x8000 ∧ Answered t u 0x8000 ∧ u.content = p ∧ u.completed = true ∧ u.st = .waitHeader

/-- R131: a completion event happens exactly on a footer taken in InFrame, and a stream of noise, a frame, noise and a
frame, with no HDR in the noise, gives exactly two completion events, with the two payloads. That noise holds no HDR
is the spec's reading (C10 of 90_conflicts.md). -/
def Obligations.StreamResynchronises : Prop :=
  (∀ (s t : State) (b : Byte), (s.st ≠ .waitHeader → s.completed = false) → exec (.decodeByte b) s = .next t →
    (t.completed = true ↔ s.st = .inFrame ∧ b = FTR)) ∧
  ∀ (s : State) (m n p q : List Byte), s.st = .waitHeader → HDR ∉ m → HDR ∉ n →
    p.length ≤ s.cfg.N → q.length ≤ s.cfg.N →
    completionEvents (m ++ frame p ++ n ++ frame q) s = [p, q]

/-- R75 (DECODE_STREAM) and R205: polling after each byte of a frame reads `completed` true once, after the last byte, with
the payload as the content; the next byte, whatever it is, clears both. -/
def Obligations.PollingFindsCompletionWindow : Prop :=
  ∀ (s : State) (p : List Byte), s.st = .waitHeader → p.length ≤ s.cfg.N →
    ∃ t, execAll (decodeStream (frame p)) s = .next t ∧
      t.outbox = s.outbox ++ (List.replicate (2 * (frame p).length - 1) 0x8000 ++ [0x8001]) ∧ t.content = p ∧
      ∀ b, ∃ u, exec (.decodeByte b) t = .next u ∧ Answered t u 0x8000 ∧ u.completed = false ∧ u.cursor = 0

/-- R132: an HDR that arrives inside a frame, not after an ESC, makes DECODE_MSG fail with CORRUPTION at that byte. -/
def Obligations.UnescapedHeaderIsCorruption : Prop :=
  ∀ (s u : State) (g rest : List Byte), hostFeed g s.resetCore = (u, none) → u.st = .inFrame →
    ∃ t, exec (.decodeMsg (g ++ HDR :: rest)) s = .next t ∧ Answered s t 0x2000 ∧ AtReset t

/-- R133 for the frames that ENCODE makes: a frame whose payload is longer than N bytes makes DECODE_MSG fail: with
OVERFLOW when byte N of the payload is plain or ESC_OVERFLOW_REPORT is true, with TRUNCATION otherwise; and then a
further whole frame in the same input is decoded. OverflowInsideMessage says it of every input. -/
def Obligations.LongPayloadIsRefused : Prop :=
  ∀ (s : State) (p r : List Byte) (x : Byte), p.length = s.cfg.N →
    (¬ Special x ∨ s.cfg.escOverflowReport = true →
      ∃ t, exec (.decodeMsg (frame (p ++ x :: r))) s = .next t ∧ Answered s t 0x1000 ∧ AtReset t) ∧
    (Special x → s.cfg.escOverflowReport = false →
      ∃ t, exec (.decodeMsg (frame (p ++ x :: r))) s = .next t ∧ Answered s t 0x3000 ∧ AtReset t) ∧
    (Special x → s.cfg.escOverflowReport = false → ∀ q : List Byte, q.length ≤ s.cfg.N →
      ∃ t, exec (.decodeMsg (frame (p ++ x :: r) ++ frame q)) s = .next t ∧ Answered s t 0x8000 ∧ t.content = q)

/-- R133: DECODE_MSG of an input whose first bytes `g`, with any leading noise and any escape pairs, leave N payload bytes
in an open frame. A further plain byte fails with OVERFLOW at that byte, whatever follows. A further escaped byte fails
with OVERFLOW too when ESC_OVERFLOW_REPORT is true; when it is false the decoder resets silently, and the call ends as if
the input began after the rest of the frame: with TRUNCATION where nothing follows it, with a further frame's payload
where one does. The rest of the frame is noise only when it holds no HDR, which is the spec's reading of noise (C10). -/
def Obligations.OverflowInsideMessage : Prop :=
  ∀ (s u : State) (g rest : List Byte), hostFeed g s.resetCore = (u, none) → u.st = .inFrame →
    u.cursor.toNat = s.cfg.N →
    (∀ x, ¬ Special x →
      ∃ t, exec (.decodeMsg (g ++ x :: rest)) s = .next t ∧ Answered s t 0x1000 ∧ AtReset t) ∧
    (s.cfg.escOverflowReport = true → ∀ y,
      ∃ t, exec (.decodeMsg (g ++ ESC :: y :: rest)) s = .next t ∧ Answered s t 0x1000 ∧ AtReset t) ∧
    (s.cfg.escOverflowReport = false → HDR ∉ rest → ∀ y,
      (∃ t, exec (.decodeMsg (g ++ ESC :: y :: rest)) s = .next t ∧ Answered s t 0x3000 ∧ AtReset t) ∧
      ∀ more, ∃ t v w, exec (.decodeMsg (g ++ ESC :: y :: (rest ++ more))) s = .next t ∧
        exec (.decodeMsg more) s = .next v ∧ Answered s t w ∧ Answered s v w ∧ SameRegisters t v ∧
        t.content = v.content)

/-- R134: a valid frame followed by any one byte in the same DECODE_MSG fails with TRUNCATION and leaves the reset
state. -/
def Obligations.TrailingByteIsTruncation : Prop :=
  ∀ (s : State) (p : List Byte) (x : Byte), p.length ≤ s.cfg.N →
    ∃ t, exec (.decodeMsg (frame p ++ [x])) s = .next t ∧ Answered s t 0x3000 ∧ AtReset t

/-- R128: no state wedges the decoder: from any state, two FTR bytes and then a frame, byte by byte, end with that frame
announced and its payload as the content. -/
def Obligations.NoStateWedgesDecoder : Prop :=
  ∀ (s : State) (p : List Byte), p.length ≤ s.cfg.N →
    ∃ t, feedBytes ([FTR, FTR] ++ frame p) s = .next t ∧ t.completed = true ∧ t.st = .waitHeader ∧ t.content = p

/-! ## Whole-machine rules -/

/-- R177: every OVERFLOW, CORRUPTION and TRUNCATION that any instruction returns, and the silent overflow of an
escaped byte, leaves WaitHeader, cursor 0 and `completed` false. -/
def Obligations.CodecFailuresLeaveResetState : Prop :=
  (∀ i s t w, exec i s = .next t → t.outbox = s.outbox ++ [w] → w = 0x1000 ∨ w = 0x2000 ∨ w = 0x3000 → AtReset t) ∧
  (∀ s t b, s.st = .afterEscape → s.cfg.N ≤ s.cursor.toNat → exec (.decodeByte b) s = .next t → AtReset t)

/-- R24: only a successful ENCODE, and a footer taken in InFrame by DECODE_BYTE or by a DECODE_MSG none of whose steps
fails, set `completed`; and where an instruction clears it, it leaves what ResetCore leaves, with InFrame for WaitHeader
where the byte is HDR, and with the bytes that a DECODE_MSG stored after its reset. That RX_FOOTER taken by itself sets it
in every decoder state, and that RX_HEADER and RX_NOISE taken by themselves reset, is the model's choice (assumption 9). -/
def Obligations.CompletedFlagWriters : Prop :=
  ∀ i s t, exec i s = .next t →
    (s.completed = false → t.completed = true →
      (∃ raw, i = .encode raw ∧ raw.length ≤ s.cfg.N) ∨ (s.st = .inFrame ∧ i = .decodeByte FTR) ∨ i = .rxFooter ∨
      (∃ g u, i = .decodeMsg (g ++ [FTR]) ∧ hostFeed g s.resetCore = (u, none) ∧ u.st = .inFrame)) ∧
    (s.completed = true → t.completed = false →
      t = { s.resetCore with st := t.st, buf := t.buf, outbox := t.outbox } ∧
      (t.buf = s.buf ∨ ∃ f, i = .decodeMsg f) ∧
      (t.st = .waitHeader ∨
        t.st = .inFrame ∧ (i = .decodeByte HDR ∨ i = .rxHeader ∨ i = .rxNoise HDR)))

/-- R51: the read commands change no state; and each of RESET, ENCODE, DECODE_MSG and the read commands, done twice, leaves
the same registers and the same content and returns the same response as done once. -/
def Obligations.RepeatedCommandsAgree : Prop :=
  (∀ i s t, i = .isCompleted ∨ i = .size ∨ (∃ k, i = .readByte k) → exec i s = .next t →
    t = { s with outbox := t.outbox }) ∧
  (∀ i s t u, (i = .isCompleted ∨ i = .size ∨ (∃ k, i = .readByte k) ∨ i = .reset ∨ (∃ raw, i = .encode raw) ∨
      ∃ f, i = .decodeMsg f) →
    exec i s = .next t → exec i t = .next u →
    SameRegisters t u ∧ t.content = u.content ∧ ∃ w, Answered s t w ∧ Answered t u w)

/-- The frame of the instructions that store nothing (R29): the buffer is unchanged by RESET, the read commands, the
illegal words and the byte classes that append nothing; the read commands and the illegal words change nothing but the
responses returned. That the RX rows are taken by themselves is the model's choice (assumption 9). -/
def Obligations.NonStoringInstructionsKeepBuffer : Prop :=
  ∀ i s t, exec i s = .next t →
    ((i = .reset ∨ i = .rxHeader ∨ (∃ b, i = .rxNoise b) ∨ i = .rxFooter ∨ i = .rxEscape ∨ i = .rxCorrupt) →
      t.buf = s.buf ∧ t.cfg = s.cfg ∧ t.inbox = s.inbox) ∧
    ((i = .isCompleted ∨ i = .size ∨ (∃ k, i = .readByte k) ∨ (∃ a, i = .reservedOp0 a) ∨
      (∃ l a, i = .reservedOp8F l a) ∨ (∃ op a, i = .illegalNoArg op a) ∨ ∃ op h l, i = .illegalByteArg op h l) →
      t = { s with outbox := t.outbox })

/-- R55: decoding, by DECODE_BYTE, DECODE_MSG or a received byte, writes only indices 0 to N-1; every byte at or above
N reads as before, and the parameters and the host's items stay. That the RX rows are taken by themselves is the
model's choice (assumption 9). -/
def Obligations.DecodingWritesBelowCapacity : Prop :=
  ∀ i s t, ((∃ b, i = .decodeByte b) ∨ (∃ f, i = .decodeMsg f) ∨ (∃ b, i = .rxData b) ∨ ∃ b, i = .rxEscaped b) →
    exec i s = .next t → t.cfg = s.cfg ∧ t.inbox = s.inbox ∧ ∀ k, s.cfg.N ≤ k → t.bufRead k = s.bufRead k

/-- R31: the invariants hold at power-on. -/
def Obligations.InvariantsHoldAtPowerOn : Prop :=
  (∀ c, Invariants (State.powerOn c)) ∧ Invariants State.reset

/-- R31: every step keeps the invariants: INV1 to INV4, INV5 as far as one state shows it, and the canonical form of the
buffer. -/
def Obligations.StepKeepsInvariants : Prop :=
  ∀ s t, Invariants s → step s = .next t → Invariants t

/-- R32: two states that differ only in buf[k] for k ≥ cursor give the same responses to every sequence of commands: each
step of one is matched by a step of the other that again leaves them alike but for stale bytes, and so are n steps. -/
def Obligations.StaleBytesAreUnobservable : Prop :=
  (∀ s t s', SameButStale s t → step s = .next s' → ∃ t', step t = .next t' ∧ SameButStale s' t') ∧
  (∀ n s t s', SameButStale s t → runSteps n s = .next s' → ∃ t', runSteps n t = .next t' ∧ s'.outbox = t'.outbox)

/-- A step never faults, and it refuses exactly where the host broke its obligations (R203, R211); everywhere else it
answers a next state. The refusals are the model's choice (assumption 8). Where no complete command has arrived the next
state is that of the waiting step, which is the model's reading (assumption 7). -/
def Obligations.StepStopsOnlyOnHostDisorder : Prop :=
  (∀ s e, step s ≠ .fault e) ∧ (∀ s, (∃ t, step s = .next t) ↔ HostKeepsOrder s)

/-- A step runs the decoded instruction: where the items the host has sent begin with a complete command, the step is
exec of that command, with its items taken. That a step takes one whole command from the items sent is the model's
choice (assumption 6). -/
def Obligations.StepRunsDecodedInstruction : Prop :=
  ∀ s i rest, decode s.inbox = .ok i rest → step s = exec i (s.withInbox rest)

/-- R71 and R73: a well-formed instruction's command word and data beats, sent by the host, are all taken by one step
that executes the instruction, whatever follows them and whatever the command's outcome. That all beats are always
taken is the spec's own choice (D3). -/
def Obligations.StepTakesWordAndAllBeats : Prop :=
  ∀ (s : State) (i : Instr) (items rest : List HostItem), i.WellFormed → encode i = .cmd16 items →
    s.inbox = items ++ rest → step s = exec i { s with inbox := rest }

/-- R71 and R187: with nothing sent, or with a command whose last data beat has not arrived, the block holds its
state. That a waiting step is a step at all is the model's reading (assumption 7). -/
def Obligations.BlockWaitsForCompleteCommand : Prop :=
  ∀ (s : State) (w : Word16) (bs : List Byte),
    (s.inbox = [] → step s = .next s) ∧
    (s.inbox = .word w :: bs.map .beat → bs.length < beatCount w → step s = .next s)

/-- R185: a step of one instance changes no other. The product form is the spec's own choice (D21). -/
def Obligations.InstancesAreIndependent : Prop :=
  ∀ (k : Nat) (ss ts : List State), stepInstance k ss = .next ts →
    ts.length = ss.length ∧ (∀ j, j ≠ k → ts[j]? = ss[j]?) ∧
    ∀ s, ss[k]? = some s → ∃ t, step s = .next t ∧ ts[k]? = some t

/-! ## Encodings -/

/-- R69: the match and mask of each command's row select that command, with its operand fields. The words are the
spec's own choice (D2). -/
def Obligations.CommandWordsDecodeByMask : Prop :=
  ∀ (w : Word16) (bs : List Byte),
    (w &&& 0xFFFF = 0x1000 → decodeCommand w bs = .reset) ∧
    (w &&& 0xF000 = 0x2000 → decodeCommand w bs = .encode bs) ∧
    (w &&& 0xF000 = 0x3000 → decodeCommand w bs = .decodeMsg bs) ∧
    (w &&& 0xFF00 = 0x4000 → decodeCommand w bs = .decodeByte (w.extractLsb' 0 8)) ∧
    (w &&& 0xFFFF = 0x5000 → decodeCommand w bs = .isCompleted) ∧
    (w &&& 0xFFFF = 0x6000 → decodeCommand w bs = .size) ∧
    (w &&& 0xFF00 = 0x7000 → decodeCommand w bs = .readByte (w.extractLsb' 0 8))

/-- Some words written out from the opcode table decode to what they stand for. The command words are the spec's own
choice (D2); what a byte row alone is read as (assumption 10), and where the beats stand above a command word (assumption
14), are the model's. -/
def Obligations.WrittenWordsDecode : Prop :=
  decodeTableWord 16 0b0001000000000000 = some .reset ∧
  decodeTableWord 32 0b01111100011110110010000000000010 = some (.encode [0x7B, 0x7C]) ∧
  decodeTableWord 24 0b011110110011000000000001 = some (.decodeMsg [0x7B]) ∧
  decodeTableWord 16 0b0100000001000001 = some (.decodeByte 0x41) ∧
  decodeTableWord 16 0b0111000000000010 = some (.readByte 2) ∧
  decodeTableWord 16 0b1001000000000011 = some (.reservedOp8F 1 3) ∧
  decodeTableWord 8 0b01111101 = some .rxFooter

/-- Decoding an encoded well-formed instruction gives it back, in every format and for every operand value. -/
def Obligations.DecodeOfEncodeIsInstruction : Prop :=
  ∀ i : Instr, i.WellFormed → decodeEncoding (encode i) = some i

/-- Every encoding has one meaning: what decodes to an instruction is that instruction's encoding, and the instruction is
well-formed (R65: the byte classes of a state are disjoint and cover every byte). -/
def Obligations.EncodeOfDecodeIsEncoding : Prop :=
  (∀ (e : Encoding) (i : Instr), decodeEncoding e = some i → i.WellFormed ∧ encode i = e) ∧
  (∀ st b, ∃ i, decodeEncoding (.rxByte st b) = some i) ∧ (∀ b, ∃ i, decodeEncoding (.txByte b) = some i)
end

