-- ==== Sys2Proof/Laws/Codec.lean ====
section
/-! SUPPORT. The fields of a command word as numbers, and taking data beats. -/

namespace Sys2Proof

/-! ## Fields as numbers -/

theorem toNat_cmdWord (op : BitVec 4) (arg : BitVec 12) : (cmdWord op arg).toNat = op.toNat * 4096 + arg.toNat := by
  rw [cmdWord, BitVec.toNat_append, ← Nat.shiftLeft_add_eq_or_of_lt arg.isLt, Nat.shiftLeft_eq]

theorem toNat_byteArg (hi : BitVec 4) (lo : Byte) : (byteArg hi lo).toNat = hi.toNat * 256 + lo.toNat := by
  rw [byteArg, BitVec.toNat_append, ← Nat.shiftLeft_add_eq_or_of_lt lo.isLt, Nat.shiftLeft_eq]

theorem toNat_opOf (w : Word16) : (opOf w).toNat = w.toNat / 4096 := by
  have := w.isLt
  simp [opOf, BitVec.extractLsb'_toNat, Nat.shiftRight_eq_div_pow]
  omega

theorem toNat_argOf (w : Word16) : (argOf w).toNat = w.toNat % 4096 := by simp [argOf, BitVec.extractLsb'_toNat]

theorem toNat_argHiOf (w : Word16) : (argHiOf w).toNat = w.toNat / 256 % 16 := by
  simp [argHiOf, BitVec.extractLsb'_toNat, Nat.shiftRight_eq_div_pow]

theorem toNat_argByteOf (w : Word16) : (argByteOf w).toNat = w.toNat % 256 := by
  simp [argByteOf, BitVec.extractLsb'_toNat]

/-! ## Fields of a built word, and a word from its fields -/

@[simp] theorem opOf_cmdWord (op : BitVec 4) (arg : BitVec 12) : opOf (cmdWord op arg) = op := by
  have := arg.isLt
  apply BitVec.eq_of_toNat_eq
  rw [toNat_opOf, toNat_cmdWord]; omega

@[simp] theorem argOf_cmdWord (op : BitVec 4) (arg : BitVec 12) : argOf (cmdWord op arg) = arg := by
  have := arg.isLt
  apply BitVec.eq_of_toNat_eq
  rw [toNat_argOf, toNat_cmdWord]; omega

@[simp] theorem argHiOf_cmdWord (op : BitVec 4) (hi : BitVec 4) (lo : Byte) :
    argHiOf (cmdWord op (byteArg hi lo)) = hi := by
  have := hi.isLt; have := lo.isLt
  apply BitVec.eq_of_toNat_eq
  rw [toNat_argHiOf, toNat_cmdWord, toNat_byteArg]; omega

@[simp] theorem argByteOf_cmdWord (op : BitVec 4) (hi : BitVec 4) (lo : Byte) :
    argByteOf (cmdWord op (byteArg hi lo)) = lo := by
  have := lo.isLt
  apply BitVec.eq_of_toNat_eq
  rw [toNat_argByteOf, toNat_cmdWord, toNat_byteArg]; omega

/-- A command word is its OP and its ARG. -/
theorem cmdWord_fields (w : Word16) : cmdWord (opOf w) (argOf w) = w := by
  apply BitVec.eq_of_toNat_eq
  rw [toNat_cmdWord, toNat_opOf, toNat_argOf]; omega

/-- ARG is its upper four bits and its byte. -/
theorem byteArg_fields (w : Word16) : byteArg (argHiOf w) (argByteOf w) = argOf w := by
  apply BitVec.eq_of_toNat_eq
  rw [toNat_byteArg, toNat_argHiOf, toNat_argByteOf, toNat_argOf]; omega

/-! ## Data beats -/

/-- Beats that have all arrived are all taken (R71). -/
theorem takeBeats_map (bs : List Byte) (rest : List HostItem) :
    takeBeats bs.length (bs.map .beat ++ rest) = .ok bs rest := by
  induction bs with
  | nil => rfl
  | cons b bs ih => simp [takeBeats, ih, consBeat]

/-- What taking beats gives is what stood there. -/
theorem takeBeats_eq_ok {n : Nat} {l rest : List HostItem} {bs : List Byte} (h : takeBeats n l = .ok bs rest) :
    bs.length = n ∧ l = bs.map .beat ++ rest := by
  induction n generalizing l bs with
  | zero =>
    simp only [takeBeats, BeatsResult.ok.injEq] at h
    obtain ⟨rfl, rfl⟩ := h
    exact ⟨rfl, rfl⟩
  | succ n ih =>
    match l with
    | [] => simp [takeBeats] at h
    | .word w :: l => simp [takeBeats] at h
    | .beat b :: l =>
      rw [takeBeats] at h
      cases ht : takeBeats n l with
      | error e => rw [ht] at h; simp [consBeat] at h
      | ok cs r =>
        rw [ht] at h
        simp only [consBeat, BeatsResult.ok.injEq] at h
        obtain ⟨rfl, rfl⟩ := h
        obtain ⟨h1, h2⟩ := ih ht
        exact ⟨by simp [h1], by simp [h2]⟩

/-- Taking beats never finds a stray beat or an empty line. -/
theorem takeBeats_error {n : Nat} {l : List HostItem} {e : DecodeError} (h : takeBeats n l = .error e) :
    e = .missingBeats ∨ e = .wordAmongBeats := by
  induction n generalizing l e with
  | zero => simp [takeBeats] at h
  | succ n ih =>
    match l with
    | [] => exact .inl (by simpa [takeBeats] using h.symm)
    | .word w :: l => exact .inr (by simpa [takeBeats] using h.symm)
    | .beat b :: l =>
      rw [takeBeats] at h
      cases ht : takeBeats n l with
      | error e' =>
        rw [ht] at h
        simp only [consBeat, BeatsResult.error.injEq] at h
        exact h ▸ ih ht
      | ok cs r => rw [ht] at h; simp [consBeat] at h

/-- A command word followed by exactly its beats decodes to its command, and the items after it are left. -/
theorem decode_framed {w : Word16} {bs : List Byte} (rest : List HostItem) (h : bs.length = beatCount w) :
    decode (.word w :: (bs.map .beat ++ rest)) = .ok (decodeCommand w bs) rest := by
  rw [decode, ← h, takeBeats_map]; rfl

/-- Everything decoding can give where it gives an instruction. -/
theorem decode_eq_ok {l rest : List HostItem} {i : Instr} (h : decode l = .ok i rest) :
    ∃ w bs, l = .word w :: (bs.map .beat ++ rest) ∧ bs.length = beatCount w ∧ i = decodeCommand w bs := by
  match l with
  | [] => simp [decode] at h
  | .beat b :: l => simp [decode] at h
  | .word w :: l =>
    rw [decode] at h
    cases ht : takeBeats (beatCount w) l with
    | error e => rw [ht] at h; simp [decodeTaken] at h
    | ok bs r =>
      rw [ht] at h
      simp only [decodeTaken, DecodeResult.ok.injEq] at h
      obtain ⟨rfl, rfl⟩ := h
      obtain ⟨h1, h2⟩ := takeBeats_eq_ok ht
      exact ⟨w, bs, by rw [h2], h1, rfl⟩

end Sys2Proof
end

