-- ==== Sys2Proof/Laws/Memory.lean ====
section
/-! SUPPORT. The laws of the buffer as a list of written bytes: read after write, and that writing keeps the canonical form. -/

namespace Sys2Proof.Machine

theorem Memory.lookup_write_same (m : Memory) (k : Nat) (v : Byte) : (m.write k v).lookup k = some v := by
  induction m with
  | nil => simp [Memory.write, Memory.lookup]
  | cons c m ih =>
    simp only [Memory.write]
    split
    · simp [Memory.lookup]
    · split
      · simp [Memory.lookup]
      · have : ¬ c.1 = k := fun h => by omega
        simp [Memory.lookup, this, ih]

theorem Memory.lookup_write_other (m : Memory) {k j : Nat} (v : Byte) (h : j ≠ k) :
    (m.write k v).lookup j = m.lookup j := by
  induction m with
  | nil => simp [Memory.write, Memory.lookup, Ne.symm h]
  | cons c m ih =>
    simp only [Memory.write]
    split
    · simp [Memory.lookup, Ne.symm h]
    · split
      · next hk => subst hk; simp [Memory.lookup, Ne.symm h]
      · simp [Memory.lookup, ih]

/-- Read after write, in one equation. -/
theorem Memory.lookup_write (m : Memory) (k j : Nat) (v : Byte) :
    (m.write k v).lookup j = if j = k then some v else m.lookup j := by
  split
  · next h => subst h; exact m.lookup_write_same j v
  · next h => exact m.lookup_write_other v h

theorem Memory.mem_write {m : Memory} {k : Nat} {v : Byte} {c : Host.Cell} (h : c ∈ m.write k v) :
    c = (k, v) ∨ c ∈ m := by
  induction m with
  | nil => simpa [Memory.write] using h
  | cons d m ih =>
    simp only [Memory.write] at h
    split at h
    · simpa using h
    · split at h
      · rcases List.mem_cons.mp h with h | h
        · exact .inl h
        · exact .inr (List.mem_cons_of_mem _ h)
      · rcases List.mem_cons.mp h with h | h
        · exact .inr (h ▸ List.mem_cons_self)
        · exact (ih h).imp id (List.mem_cons_of_mem _)

/-- Writing keeps the canonical form. -/
theorem Memory.wf_write {m : Memory} (k : Nat) (v : Byte) (h : m.wf) : (m.write k v).wf := by
  induction m with
  | nil => simp [Memory.write]
  | cons d m ih =>
    obtain ⟨hd, hm⟩ := List.pairwise_cons.mp h
    simp only [Memory.write]
    split
    · next hk =>
      refine List.pairwise_cons.mpr ⟨fun c hc => ?_, h⟩
      rcases List.mem_cons.mp hc with rfl | hc
      · exact hk
      · exact Nat.lt_trans hk (hd c hc)
    · split
      · next hk => exact List.pairwise_cons.mpr ⟨fun c hc => hk ▸ hd c hc, hm⟩
      · refine List.pairwise_cons.mpr ⟨fun c hc => ?_, ih hm⟩
        rcases Memory.mem_write hc with rfl | hc
        · show d.1 < k
          omega
        · exact hd c hc

/-- Writing at an index of the buffer lists no index outside it. -/
theorem Memory.within_write {m : Memory} {k n : Nat} (v : Byte) (hk : k < n) (h : m.within n) :
    (m.write k v).within n := fun c hc => by
  rcases Memory.mem_write hc with rfl | hc
  · exact hk
  · exact h c hc

theorem Memory.lookup_eq_none {m : Memory} {k : Nat} (h : ∀ c ∈ m, c.1 ≠ k) : m.lookup k = none := by
  induction m with
  | nil => rfl
  | cons d m ih =>
    simp [Memory.lookup, h d List.mem_cons_self, ih fun c hc => h c (List.mem_cons_of_mem _ hc)]

/-- Canonical buffers that hold the same written bytes are equal data. -/
theorem Memory.ext_of_lookup {m n : Memory} (hm : m.wf) (hn : n.wf) (h : ∀ k, m.lookup k = n.lookup k) : m = n := by
  induction m generalizing n with
  | nil =>
    cases n with
    | nil => rfl
    | cons d n => simpa [Memory.lookup] using h d.1
  | cons c m ih =>
    cases n with
    | nil => simpa [Memory.lookup] using h c.1
    | cons d n =>
      obtain ⟨hc, hm⟩ := List.pairwise_cons.mp hm
      obtain ⟨hd, hn⟩ := List.pairwise_cons.mp hn
      have head : c.1 = d.1 := by
        rcases Nat.lt_trichotomy c.1 d.1 with hlt | heq | hgt
        · have := h c.1
          rw [Memory.lookup_eq_none (m := d :: n) (k := c.1)] at this
          · simp [Memory.lookup] at this
          · intro e he
            rcases List.mem_cons.mp he with rfl | he
            · omega
            · have := hd e he; omega
        · exact heq
        · have := h d.1
          rw [Memory.lookup_eq_none (m := c :: m) (k := d.1)] at this
          · simp [Memory.lookup] at this
          · intro e he
            rcases List.mem_cons.mp he with rfl | he
            · omega
            · have := hc e he; omega
      have value : c.2 = d.2 := by simpa [Memory.lookup, head] using h c.1
      have tail : m = n := by
        refine ih hm hn fun k => ?_
        by_cases hk : c.1 = k
        · rw [Memory.lookup_eq_none, Memory.lookup_eq_none]
          · intro e he; have := hd e he; omega
          · intro e he; have := hc e he; omega
        · simpa [Memory.lookup, hk, head ▸ hk] using h k
      rw [Prod.ext head value, tail]

end Sys2Proof.Machine
end

