-- ==== Sys2Proof/Laws/State.lean ====
section
/-! SUPPORT. One lemma per field of `State` per update, so that no later proof unfolds a record update. -/

namespace Sys2Proof.Machine

variable (s : State)

@[simp] theorem State.resetCore_cfg : s.resetCore.cfg = s.cfg := rfl
@[simp] theorem State.resetCore_buf : s.resetCore.buf = s.buf := rfl
@[simp] theorem State.resetCore_cursor : s.resetCore.cursor = 0 := rfl
@[simp] theorem State.resetCore_st : s.resetCore.st = .waitHeader := rfl
@[simp] theorem State.resetCore_completed : s.resetCore.completed = false := rfl
@[simp] theorem State.resetCore_inbox : s.resetCore.inbox = s.inbox := rfl
@[simp] theorem State.resetCore_outbox : s.resetCore.outbox = s.outbox := rfl

@[simp] theorem State.push_cfg (v : Byte) : (s.push v).cfg = s.cfg := rfl
@[simp] theorem State.push_buf (v : Byte) : (s.push v).buf = s.buf.write s.cursor.toNat v := rfl
@[simp] theorem State.push_cursor (v : Byte) : (s.push v).cursor = s.cursor + 1 := rfl
@[simp] theorem State.push_st (v : Byte) : (s.push v).st = s.st := rfl
@[simp] theorem State.push_completed (v : Byte) : (s.push v).completed = s.completed := rfl
@[simp] theorem State.push_inbox (v : Byte) : (s.push v).inbox = s.inbox := rfl
@[simp] theorem State.push_outbox (v : Byte) : (s.push v).outbox = s.outbox := rfl

@[simp] theorem State.withSt_cfg (d : DecState) : (s.withSt d).cfg = s.cfg := rfl
@[simp] theorem State.withSt_buf (d : DecState) : (s.withSt d).buf = s.buf := rfl
@[simp] theorem State.withSt_cursor (d : DecState) : (s.withSt d).cursor = s.cursor := rfl
@[simp] theorem State.withSt_st (d : DecState) : (s.withSt d).st = d := rfl
@[simp] theorem State.withSt_completed (d : DecState) : (s.withSt d).completed = s.completed := rfl
@[simp] theorem State.withSt_inbox (d : DecState) : (s.withSt d).inbox = s.inbox := rfl
@[simp] theorem State.withSt_outbox (d : DecState) : (s.withSt d).outbox = s.outbox := rfl

@[simp] theorem State.withCompleted_cfg (c : Bool) : (s.withCompleted c).cfg = s.cfg := rfl
@[simp] theorem State.withCompleted_buf (c : Bool) : (s.withCompleted c).buf = s.buf := rfl
@[simp] theorem State.withCompleted_cursor (c : Bool) : (s.withCompleted c).cursor = s.cursor := rfl
@[simp] theorem State.withCompleted_st (c : Bool) : (s.withCompleted c).st = s.st := rfl
@[simp] theorem State.withCompleted_completed (c : Bool) : (s.withCompleted c).completed = c := rfl
@[simp] theorem State.withCompleted_inbox (c : Bool) : (s.withCompleted c).inbox = s.inbox := rfl
@[simp] theorem State.withCompleted_outbox (c : Bool) : (s.withCompleted c).outbox = s.outbox := rfl

@[simp] theorem State.withInbox_cfg (l : List HostItem) : (s.withInbox l).cfg = s.cfg := rfl
@[simp] theorem State.withInbox_buf (l : List HostItem) : (s.withInbox l).buf = s.buf := rfl
@[simp] theorem State.withInbox_cursor (l : List HostItem) : (s.withInbox l).cursor = s.cursor := rfl
@[simp] theorem State.withInbox_st (l : List HostItem) : (s.withInbox l).st = s.st := rfl
@[simp] theorem State.withInbox_completed (l : List HostItem) : (s.withInbox l).completed = s.completed := rfl
@[simp] theorem State.withInbox_inbox (l : List HostItem) : (s.withInbox l).inbox = l := rfl
@[simp] theorem State.withInbox_outbox (l : List HostItem) : (s.withInbox l).outbox = s.outbox := rfl

@[simp] theorem State.respond_cfg (r : Response) : (s.respond r).cfg = s.cfg := rfl
@[simp] theorem State.respond_buf (r : Response) : (s.respond r).buf = s.buf := rfl
@[simp] theorem State.respond_cursor (r : Response) : (s.respond r).cursor = s.cursor := rfl
@[simp] theorem State.respond_st (r : Response) : (s.respond r).st = s.st := rfl
@[simp] theorem State.respond_completed (r : Response) : (s.respond r).completed = s.completed := rfl
@[simp] theorem State.respond_inbox (r : Response) : (s.respond r).inbox = s.inbox := rfl
@[simp] theorem State.respond_outbox (r : Response) : (s.respond r).outbox = s.outbox ++ [r.toWord] := rfl

/-! The power-on state (R33). -/

@[simp] theorem State.powerOn_cfg (c : Config) : (State.powerOn c).cfg = c := rfl
@[simp] theorem State.powerOn_buf (c : Config) : (State.powerOn c).buf = [] := rfl
@[simp] theorem State.powerOn_cursor (c : Config) : (State.powerOn c).cursor = 0 := rfl
@[simp] theorem State.powerOn_st (c : Config) : (State.powerOn c).st = .waitHeader := rfl
@[simp] theorem State.powerOn_completed (c : Config) : (State.powerOn c).completed = false := rfl
@[simp] theorem State.powerOn_inbox (c : Config) : (State.powerOn c).inbox = [] := rfl
@[simp] theorem State.powerOn_outbox (c : Config) : (State.powerOn c).outbox = [] := rfl

/-! What reading the buffer sees of an update. -/

@[simp] theorem State.bufRead_resetCore (i : Nat) : s.resetCore.bufRead i = s.bufRead i := rfl
@[simp] theorem State.bufRead_withSt (d : DecState) (i : Nat) : (s.withSt d).bufRead i = s.bufRead i := rfl
@[simp] theorem State.bufRead_withCompleted (c : Bool) (i : Nat) : (s.withCompleted c).bufRead i = s.bufRead i := rfl
@[simp] theorem State.bufRead_withInbox (l : List HostItem) (i : Nat) : (s.withInbox l).bufRead i = s.bufRead i := rfl
@[simp] theorem State.bufRead_respond (r : Response) (i : Nat) : (s.respond r).bufRead i = s.bufRead i := rfl

@[simp] theorem State.content_resetCore : s.resetCore.content = [] := rfl
@[simp] theorem State.content_withSt (d : DecState) : (s.withSt d).content = s.content := rfl
@[simp] theorem State.content_withCompleted (c : Bool) : (s.withCompleted c).content = s.content := rfl
@[simp] theorem State.content_withInbox (l : List HostItem) : (s.withInbox l).content = s.content := rfl
@[simp] theorem State.content_respond (r : Response) : (s.respond r).content = s.content := rfl

end Sys2Proof.Machine
end

