-- ==== Sys2Proof/Laws/Ops.lean ====
section
/-! SUPPORT. What each shared operation of Machine/Ops.lean can do, and many appends in a row. -/

namespace Sys2Proof.Machine

theorem bufSize_le (c : Config) : c.bufSize ≤ 254 := by
  have := c.N_le; unfold Config.bufSize; omega

theorem N_lt_bufSize (c : Config) : c.N < c.bufSize := by
  unfold Config.bufSize; omega

/-! ## Operations one after another -/

@[simp] theorem andThen_next (s : State) (f : State → Result) : andThen (.next s) f = f s := rfl
@[simp] theorem andThen_fault (e : Fault) (f : State → Result) : andThen (.fault e) f = .fault e := rfl
@[simp] theorem andThen_refused (e : Refusal) (f : State → Result) : andThen (.refused e) f = .refused e := rfl

/-- A sequence that answers a next state went through a next state of its first part. -/
theorem andThen_eq_next {r : Result} {f : State → Result} {t : State} (h : andThen r f = .next t) :
    ∃ m, r = .next m ∧ f m = .next t := by
  cases r with
  | next m => exact ⟨m, rfl, h⟩
  | fault e => cases h
  | refused e => cases h

theorem answer_eq (p : State × Response) : answer p = .next (p.1.respond p.2) := rfl

/-! ## One append -/

theorem push_cursor_toNat {s : State} (v : Byte) (h : s.cursor.toNat < 255) :
    (s.push v).cursor.toNat = s.cursor.toNat + 1 := by
  rw [State.push_cursor, BitVec.toNat_add]
  have : BitVec.toNat (1 : BitVec 8) = 1 := rfl
  omega

theorem bufRead_push (s : State) (v : Byte) (i : Nat) :
    (s.push v).bufRead i = if i = s.cursor.toNat then v else s.bufRead i := by
  unfold State.bufRead
  rw [State.push_buf, Memory.lookup_write]
  split <;> rfl

theorem content_push {s : State} (v : Byte) (h : s.cursor.toNat < 255) : (s.push v).content = s.content ++ [v] := by
  unfold State.content
  rw [push_cursor_toNat v h, List.range_succ, List.map_append]
  congr 1
  · refine List.map_congr_left fun i hi => ?_
    have := List.mem_range.mp hi
    rw [bufRead_push, if_neg (by omega)]
  · simp [bufRead_push]

@[simp] theorem content_length (s : State) : s.content.length = s.cursor.toNat := by simp [State.content]

/-- AppendRaw inside the buffer (R42). -/
theorem appendRaw_next {s : State} (v : Byte) (h : s.cursor.toNat < s.cfg.bufSize) : appendRaw v s = .next (s.push v) :=
  if_pos h

/-- AppendRaw outside the buffer. -/
theorem appendRaw_fault {s : State} (v : Byte) (h : s.cfg.bufSize ≤ s.cursor.toNat) :
    appendRaw v s = .fault .noSuchIndex := if_neg (Nat.not_lt.mpr h)

/-- Everything AppendRaw can do. -/
theorem appendRaw_cases (v : Byte) (s : State) :
    (s.cursor.toNat < s.cfg.bufSize ∧ appendRaw v s = .next (s.push v)) ∨
    (s.cfg.bufSize ≤ s.cursor.toNat ∧ appendRaw v s = .fault .noSuchIndex) := by
  rcases Nat.lt_or_ge s.cursor.toNat s.cfg.bufSize with h | h
  · exact .inl ⟨h, appendRaw_next v h⟩
  · exact .inr ⟨h, appendRaw_fault v h⟩

/-- AppendChecked with room (R43). -/
theorem appendChecked_room {s : State} (v : Byte) (h : s.cursor.toNat < s.cfg.N) :
    appendChecked v s = (s.push v, true) := if_neg (Nat.not_le.mpr h)

/-- AppendChecked without room (R43). -/
theorem appendChecked_full {s : State} (v : Byte) (h : s.cfg.N ≤ s.cursor.toNat) :
    appendChecked v s = (s.resetCore, false) := if_pos h

/-! ## Many appends in a row -/

/-- The bytes of a list appended in order, with no check. -/
def State.pushAll : List Byte → State → State
  | [], s => s
  | v :: vs, s => pushAll vs (s.push v)

@[simp] theorem State.pushAll_nil (s : State) : State.pushAll [] s = s := rfl
@[simp] theorem State.pushAll_cons (v : Byte) (vs : List Byte) (s : State) :
    State.pushAll (v :: vs) s = State.pushAll vs (s.push v) := rfl

theorem State.pushAll_append (vs ws : List Byte) (s : State) :
    State.pushAll (vs ++ ws) s = State.pushAll ws (State.pushAll vs s) := by
  induction vs generalizing s with
  | nil => rfl
  | cons v vs ih => exact ih _

@[simp] theorem State.pushAll_cfg (vs : List Byte) (s : State) : (State.pushAll vs s).cfg = s.cfg := by
  induction vs generalizing s with
  | nil => rfl
  | cons v vs ih => exact ih _

@[simp] theorem State.pushAll_st (vs : List Byte) (s : State) : (State.pushAll vs s).st = s.st := by
  induction vs generalizing s with
  | nil => rfl
  | cons v vs ih => exact ih _

@[simp] theorem State.pushAll_completed (vs : List Byte) (s : State) :
    (State.pushAll vs s).completed = s.completed := by
  induction vs generalizing s with
  | nil => rfl
  | cons v vs ih => exact ih _

@[simp] theorem State.pushAll_inbox (vs : List Byte) (s : State) : (State.pushAll vs s).inbox = s.inbox := by
  induction vs generalizing s with
  | nil => rfl
  | cons v vs ih => exact ih _

@[simp] theorem State.pushAll_outbox (vs : List Byte) (s : State) : (State.pushAll vs s).outbox = s.outbox := by
  induction vs generalizing s with
  | nil => rfl
  | cons v vs ih => exact ih _

theorem pushAll_cursor_toNat {vs : List Byte} {s : State} (h : s.cursor.toNat + vs.length ≤ 255) :
    (State.pushAll vs s).cursor.toNat = s.cursor.toNat + vs.length := by
  induction vs generalizing s with
  | nil => rfl
  | cons v vs ih =>
    simp only [List.length_cons] at h
    have hp := push_cursor_toNat (s := s) v (by omega)
    rw [State.pushAll_cons, ih (by omega), hp, List.length_cons]
    omega

theorem content_pushAll {vs : List Byte} {s : State} (h : s.cursor.toNat + vs.length ≤ 255) :
    (State.pushAll vs s).content = s.content ++ vs := by
  induction vs generalizing s with
  | nil => simp
  | cons v vs ih =>
    simp only [List.length_cons] at h
    have hp := push_cursor_toNat (s := s) v (by omega)
    rw [State.pushAll_cons, ih (by omega), content_push v (by omega), List.append_assoc]
    rfl

/-- Appending writes no index at or above the new cursor, and none below the old one. -/
theorem lookup_pushAll_other {vs : List Byte} {s : State} {k : Nat} (h : s.cursor.toNat + vs.length ≤ 255)
    (hk : k < s.cursor.toNat ∨ s.cursor.toNat + vs.length ≤ k) :
    (State.pushAll vs s).buf.lookup k = s.buf.lookup k := by
  induction vs generalizing s with
  | nil => rfl
  | cons v vs ih =>
    simp only [List.length_cons] at h hk
    have hp := push_cursor_toNat (s := s) v (by omega)
    rw [State.pushAll_cons, ih (by omega) (by omega), State.push_buf, Memory.lookup_write_other _ _ (by omega)]

/-- Appending lists every index it writes. -/
theorem lookup_pushAll_isSome {vs : List Byte} {s : State} {k : Nat} (h : s.cursor.toNat + vs.length ≤ 255)
    (hs : ∀ j < s.cursor.toNat, (s.buf.lookup j).isSome) (hk : k < s.cursor.toNat + vs.length) :
    ((State.pushAll vs s).buf.lookup k).isSome := by
  induction vs generalizing s with
  | nil => exact hs k hk
  | cons v vs ih =>
    simp only [List.length_cons] at h hk
    have hp := push_cursor_toNat (s := s) v (by omega)
    refine ih (by omega) (fun j hj => ?_) (by omega)
    rw [State.push_buf, Memory.lookup_write]
    split
    · rfl
    · exact hs j (by omega)

theorem wf_pushAll {vs : List Byte} {s : State} (h : s.buf.wf) : (State.pushAll vs s).buf.wf := by
  induction vs generalizing s with
  | nil => exact h
  | cons v vs ih => exact ih (Memory.wf_write _ v h)

theorem within_pushAll {vs : List Byte} {s : State} (hn : s.cursor.toNat + vs.length ≤ s.cfg.bufSize)
    (h : s.buf.within s.cfg.bufSize) : (State.pushAll vs s).buf.within s.cfg.bufSize := by
  induction vs generalizing s with
  | nil => exact h
  | cons v vs ih =>
    simp only [List.length_cons] at hn
    have := bufSize_le s.cfg
    have hp := push_cursor_toNat (s := s) v (by omega)
    exact ih (s := s.push v) (by rw [hp, State.push_cfg]; omega) (Memory.within_write v (by rw [State.push_cfg]; omega) h)

end Sys2Proof.Machine
end

