-- ==== Sys2Proof/Laws/Encoder.lean ====
section
/-! SUPPORT. What the encoder's shared operations do: the walk appends the escaped payload, and ENCODE answers on every
operand. -/

namespace Sys2Proof.Machine

theorem length_escapeByte (x : Byte) : (escapeByte x).length = 1 + if Special x then 1 else 0 := by
  unfold escapeByte; split <;> rfl

/-- The length of an escaped payload (R63). -/
theorem length_escape (p : List Byte) : (escape p).length = p.length + specialCount p := by
  induction p with
  | nil => rfl
  | cons x p ih => simp only [escape, List.length_append, length_escapeByte, List.length_cons, specialCount, ih]; omega

theorem specialCount_le (p : List Byte) : specialCount p ≤ p.length := by
  induction p with
  | nil => exact Nat.le_refl _
  | cons x p ih => simp only [specialCount, List.length_cons]; split <;> omega

theorem escape_append (p q : List Byte) : escape (p ++ q) = escape p ++ escape q := by
  induction p with
  | nil => rfl
  | cons x p ih => simp [escape, ih]

/-- One payload byte with room for what it becomes. -/
theorem emitByte_next {s : State} (x : Byte) (h : s.cursor.toNat + (escapeByte x).length ≤ s.cfg.bufSize) :
    emitByte x s = .next (State.pushAll (escapeByte x) s) := by
  have hb := bufSize_le s.cfg
  unfold emitByte escapeByte at *
  split at h
  · next hx =>
    simp only [List.length_cons, List.length_nil] at h
    have hp := push_cursor_toNat (s := s) ESC (by omega)
    rw [if_pos hx, emitSpecial, appendRaw_next _ (by omega), andThen_next, appendRaw_next _ (by rw [hp, State.push_cfg]; omega)]
    simp [hx]
  · next hx =>
    simp only [List.length_cons, List.length_nil] at h
    rw [if_neg hx, appendRaw_next _ (by omega)]
    simp [hx]

/-- ENCODE's walk with room for the escaped payload (R102). -/
theorem encodeWalk_next {raw : List Byte} {s : State} (h : s.cursor.toNat + (escape raw).length ≤ s.cfg.bufSize) :
    encodeWalk raw s = .next (State.pushAll (escape raw) s) := by
  have hb := bufSize_le s.cfg
  induction raw generalizing s with
  | nil => rfl
  | cons x raw ih =>
    simp only [escape, List.length_append] at h
    have hp := pushAll_cursor_toNat (vs := escapeByte x) (s := s) (by omega)
    rw [encodeWalk, emitByte_next x (by omega), andThen_next, ih (by rw [hp, State.pushAll_cfg]; omega) (by simpa using hb),
      escape, State.pushAll_append]

/-- The whole frame fits whenever the payload does (R102). -/
theorem length_frame_le {raw : List Byte} {c : Config} (h : raw.length ≤ c.N) : (frame raw).length ≤ c.bufSize := by
  have := specialCount_le raw
  simp only [frame, List.length_cons, List.length_append, List.length_nil, length_escape, Config.bufSize]
  omega

/-- ENCODE's frame from an empty buffer. -/
theorem encodeFrame_next {raw : List Byte} {s : State} (h0 : s.cursor = 0) (h : raw.length ≤ s.cfg.N) :
    encodeFrame raw s = .next (State.pushAll (frame raw) s) := by
  have hf := length_frame_le h
  have hb := bufSize_le s.cfg
  have hc : s.cursor.toNat = 0 := by rw [h0]; rfl
  simp only [frame, List.length_cons, List.length_append, List.length_nil] at hf
  have hp := push_cursor_toNat (s := s) HDR (by omega)
  have hq := pushAll_cursor_toNat (vs := escape raw) (s := s.push HDR) (by omega)
  rw [encodeFrame, appendRaw_next _ (by omega), andThen_next, encodeWalk_next (by rw [hp, State.push_cfg]; omega),
    andThen_next, appendRaw_next _ (by rw [hq, hp]; simp; omega), frame, State.pushAll_cons, State.pushAll_append]
  rfl

/-- ENCODE of a payload that fits. -/
theorem execEncode_fits {raw : List Byte} {s : State} (h : raw.length ≤ s.cfg.N) :
    execEncode raw s =
      .next (((State.pushAll (frame raw) s.resetCore).withCompleted true).respond (.ok 0)) := by
  rw [execEncode, if_neg (by rw [State.resetCore_cfg]; omega), encodeFrame_next rfl (by rw [State.resetCore_cfg]; exact h)]
  rfl

/-- ENCODE of a payload that does not fit. -/
theorem execEncode_tooLong {raw : List Byte} {s : State} (h : s.cfg.N < raw.length) :
    execEncode raw s = .next (s.resetCore.respond (.fail .overflow)) := by
  rw [execEncode, if_pos (by rw [State.resetCore_cfg]; exact h)]
  rfl

end Sys2Proof.Machine
end

