-- ==== Sys2Proof/Laws/Decoder.lean ====
section
/-! SUPPORT. What the decoder's shared operations do: the transition function by cases, the walk over an input, and the
walk over a frame. -/

namespace Sys2Proof.Machine

theorem HDR_ne_ESC : HDR ≠ ESC := by decide
theorem HDR_ne_FTR : HDR ≠ FTR := by decide
theorem ESC_ne_FTR : ESC ≠ FTR := by decide

/-- Un-masking restores a masked byte. -/
theorem xor_mask_twice (b : Byte) : b ^^^ XORM ^^^ XORM = b := by
  rw [BitVec.xor_assoc, BitVec.xor_self, BitVec.xor_zero]

/-! ## The transition function, row by row -/

theorem decoderStep_header {s : State} (h : s.st = .waitHeader) :
    decoderStep HDR s = (s.resetCore.withSt .inFrame, .ok 0) := by
  rw [decoderStep, h]; rfl

theorem decoderStep_noise {s : State} {b : Byte} (h : s.st = .waitHeader) (hb : b ≠ HDR) :
    decoderStep b s = (s.resetCore, .ok 0) := by
  rw [decoderStep, h]; simp [stepWaitHeader, hb]

theorem decoderStep_footer {s : State} (h : s.st = .inFrame) :
    decoderStep FTR s = ((s.withSt .waitHeader).withCompleted true, .ok 0) := by
  rw [decoderStep, h]; rfl

theorem decoderStep_escape {s : State} (h : s.st = .inFrame) : decoderStep ESC s = (s.withSt .afterEscape, .ok 0) := by
  rw [decoderStep, h]; rfl

theorem decoderStep_corrupt {s : State} (h : s.st = .inFrame) :
    decoderStep HDR s = (s.resetCore, .fail .corruption) := by
  rw [decoderStep, h]; rfl

theorem decoderStep_data_eq {s : State} {b : Byte} (h : s.st = .inFrame) (hb : ¬ Special b) :
    decoderStep b s = stepInFrameData b s := by
  obtain ⟨h1, h2, h3⟩ : b ≠ HDR ∧ b ≠ ESC ∧ b ≠ FTR := by simpa [Special, not_or] using hb
  simp [decoderStep, h, h1, h2, h3]

theorem stepInFrameData_room {s : State} (b : Byte) (h : s.cursor.toNat < s.cfg.N) :
    stepInFrameData b s = (s.push b, .ok 0) := by
  rw [stepInFrameData, appendChecked_room b h]

theorem stepInFrameData_full {s : State} (b : Byte) (h : s.cfg.N ≤ s.cursor.toNat) :
    stepInFrameData b s = (s.resetCore, .fail .overflow) := by
  rw [stepInFrameData, appendChecked_full b h]

theorem decoderStep_data {s : State} {b : Byte} (h : s.st = .inFrame) (hb : ¬ Special b)
    (hc : s.cursor.toNat < s.cfg.N) : decoderStep b s = (s.push b, .ok 0) := by
  rw [decoderStep_data_eq h hb, stepInFrameData_room b hc]

theorem decoderStep_dataFull {s : State} {b : Byte} (h : s.st = .inFrame) (hb : ¬ Special b)
    (hc : s.cfg.N ≤ s.cursor.toNat) : decoderStep b s = (s.resetCore, .fail .overflow) := by
  rw [decoderStep_data_eq h hb, stepInFrameData_full b hc]

theorem stepAfterEscape_room {s : State} (b : Byte) (h : s.cursor.toNat < s.cfg.N) :
    stepAfterEscape b s = ((s.withSt .inFrame).push (b ^^^ XORM), .ok 0) := by
  rw [stepAfterEscape, appendChecked_room (s := s.withSt .inFrame) _ h]

theorem stepAfterEscape_full {s : State} (b : Byte) (h : s.cfg.N ≤ s.cursor.toNat) :
    stepAfterEscape b s = (s.resetCore, escOverflowResponse s.cfg) := by
  rw [stepAfterEscape, appendChecked_full (s := s.withSt .inFrame) _ h]
  rfl

theorem decoderStep_escaped {s : State} {b : Byte} (h : s.st = .afterEscape) (hc : s.cursor.toNat < s.cfg.N) :
    decoderStep b s = ((s.withSt .inFrame).push (b ^^^ XORM), .ok 0) := by
  rw [decoderStep, h]; exact stepAfterEscape_room b hc

theorem decoderStep_escapedFull {s : State} {b : Byte} (h : s.st = .afterEscape) (hc : s.cfg.N ≤ s.cursor.toNat) :
    decoderStep b s = (s.resetCore, escOverflowResponse s.cfg) := by
  rw [decoderStep, h]; exact stepAfterEscape_full b hc

/-- Everything one transition can do. -/
theorem decoderStep_cases (b : Byte) (s : State) :
    (s.st = .waitHeader ∧ b = HDR ∧ decoderStep b s = (s.resetCore.withSt .inFrame, .ok 0)) ∨
    (s.st = .waitHeader ∧ b ≠ HDR ∧ decoderStep b s = (s.resetCore, .ok 0)) ∨
    (s.st = .inFrame ∧ b = FTR ∧ decoderStep b s = ((s.withSt .waitHeader).withCompleted true, .ok 0)) ∨
    (s.st = .inFrame ∧ b = ESC ∧ decoderStep b s = (s.withSt .afterEscape, .ok 0)) ∨
    (s.st = .inFrame ∧ b = HDR ∧ decoderStep b s = (s.resetCore, .fail .corruption)) ∨
    (s.st = .inFrame ∧ ¬ Special b ∧ s.cursor.toNat < s.cfg.N ∧ decoderStep b s = (s.push b, .ok 0)) ∨
    (s.st = .inFrame ∧ ¬ Special b ∧ s.cfg.N ≤ s.cursor.toNat ∧ decoderStep b s = (s.resetCore, .fail .overflow)) ∨
    (s.st = .afterEscape ∧ s.cursor.toNat < s.cfg.N ∧
      decoderStep b s = ((s.withSt .inFrame).push (b ^^^ XORM), .ok 0)) ∨
    (s.st = .afterEscape ∧ s.cfg.N ≤ s.cursor.toNat ∧ decoderStep b s = (s.resetCore, escOverflowResponse s.cfg)) := by
  cases h : s.st with
  | waitHeader =>
    by_cases hb : b = HDR
    · exact .inl ⟨rfl, hb, hb ▸ decoderStep_header h⟩
    · exact .inr <| .inl ⟨rfl, hb, decoderStep_noise h hb⟩
  | inFrame =>
    by_cases hs : Special b
    · rcases hs with rfl | rfl | rfl
      · exact .inr <| .inr <| .inr <| .inr <| .inl ⟨rfl, rfl, decoderStep_corrupt h⟩
      · exact .inr <| .inr <| .inr <| .inl ⟨rfl, rfl, decoderStep_escape h⟩
      · exact .inr <| .inr <| .inl ⟨rfl, rfl, decoderStep_footer h⟩
    · rcases Nat.lt_or_ge s.cursor.toNat s.cfg.N with hc | hc
      · exact .inr <| .inr <| .inr <| .inr <| .inr <| .inl ⟨rfl, hs, hc, decoderStep_data h hs hc⟩
      · exact .inr <| .inr <| .inr <| .inr <| .inr <| .inr <| .inl ⟨rfl, hs, hc, decoderStep_dataFull h hs hc⟩
  | afterEscape =>
    rcases Nat.lt_or_ge s.cursor.toNat s.cfg.N with hc | hc
    · exact .inr <| .inr <| .inr <| .inr <| .inr <| .inr <| .inr <| .inl ⟨rfl, hc, decoderStep_escaped h hc⟩
    · exact .inr <| .inr <| .inr <| .inr <| .inr <| .inr <| .inr <| .inr ⟨rfl, hc, decoderStep_escapedFull h hc⟩

/-- A transition leaves the parameters and the host connection alone. -/
theorem decoderStep_frame (b : Byte) (s : State) :
    (decoderStep b s).1.cfg = s.cfg ∧ (decoderStep b s).1.inbox = s.inbox ∧ (decoderStep b s).1.outbox = s.outbox := by
  rcases decoderStep_cases b s with ⟨_, _, h⟩ | ⟨_, _, h⟩ | ⟨_, _, h⟩ | ⟨_, _, h⟩ | ⟨_, _, h⟩ | ⟨_, _, _, h⟩ | ⟨_, _, _, h⟩ |
    ⟨_, _, h⟩ | ⟨_, _, h⟩ <;> simp [h]

/-! ## The walk over an input -/

theorem decodeWalk_cons_ok {b : Byte} {bs : List Byte} {s t : State} {d : Byte} (h : decoderStep b s = (t, .ok d)) :
    decodeWalk (b :: bs) s = decodeWalk bs t := by
  rw [decodeWalk, h]

theorem decodeWalk_cons_fail {b : Byte} {bs : List Byte} {s t : State} {k : Kind}
    (h : decoderStep b s = (t, .fail k)) : decodeWalk (b :: bs) s = (t, some k) := by
  rw [decodeWalk, h]

/-- An input in two parts: the second is walked from where the first ends, unless a step of the first failed. -/
theorem decodeWalk_append {bs cs : List Byte} {s t : State} (h : decodeWalk bs s = (t, none)) :
    decodeWalk (bs ++ cs) s = decodeWalk cs t := by
  induction bs generalizing s with
  | nil => simp only [decodeWalk, Prod.mk.injEq, and_true] at h; rw [h]; rfl
  | cons b bs ih =>
    rcases hr : decoderStep b s with ⟨m, d | k⟩
    · rw [decodeWalk_cons_ok hr] at h
      rw [List.cons_append, decodeWalk_cons_ok hr, ih h]
    · rw [decodeWalk_cons_fail hr] at h; cases h

theorem decodeWalk_append_fail {bs cs : List Byte} {s t : State} {k : Kind} (h : decodeWalk bs s = (t, some k)) :
    decodeWalk (bs ++ cs) s = (t, some k) := by
  induction bs generalizing s with
  | nil => cases h
  | cons b bs ih =>
    rcases hr : decoderStep b s with ⟨m, d | k⟩
    · rw [decodeWalk_cons_ok hr] at h
      rw [List.cons_append, decodeWalk_cons_ok hr, ih h]
    · rw [decodeWalk_cons_fail hr] at h
      rw [List.cons_append, decodeWalk_cons_fail hr, h]

theorem decodeWalk_frame (bs : List Byte) (s : State) :
    (decodeWalk bs s).1.cfg = s.cfg ∧ (decodeWalk bs s).1.inbox = s.inbox ∧ (decodeWalk bs s).1.outbox = s.outbox := by
  induction bs generalizing s with
  | nil => exact ⟨rfl, rfl, rfl⟩
  | cons b bs ih =>
    have hf := decoderStep_frame b s
    rcases hr : decoderStep b s with ⟨m, d | k⟩
    · rw [decodeWalk_cons_ok hr]
      rw [hr] at hf
      exact ⟨(ih m).1.trans hf.1, (ih m).2.1.trans hf.2.1, (ih m).2.2.trans hf.2.2⟩
    · rw [decodeWalk_cons_fail hr]
      rw [hr] at hf
      exact hf

/-- A non-empty input with no HDR, from WaitHeader, is noise (R121). -/
theorem decodeWalk_noise {bs : List Byte} {s : State} (hs : s.st = .waitHeader) (hb : HDR ∉ bs) :
    decodeWalk bs s = (if bs = [] then s else s.resetCore, none) := by
  induction bs generalizing s with
  | nil => rfl
  | cons b bs ih =>
    simp only [List.mem_cons, not_or] at hb
    rw [decodeWalk_cons_ok (decoderStep_noise hs (Ne.symm hb.1)), ih rfl hb.2]
    split <;> rfl

/-- An escaped payload in InFrame, with room for the payload, is appended (R106). -/
theorem decodeWalk_escape {p : List Byte} {s : State} (hs : s.st = .inFrame) (hc : s.cursor.toNat + p.length ≤ s.cfg.N) :
    decodeWalk (escape p) s = (State.pushAll p s, none) := by
  have hN := s.cfg.N_le
  induction p generalizing s with
  | nil => rfl
  | cons x p ih =>
    simp only [List.length_cons] at hc
    have hp := push_cursor_toNat (s := s) x (by omega)
    have hrest := ih (s := s.push x) hs (by rw [hp, State.push_cfg]; omega) hN
    rw [escape, escapeByte]
    split
    · next hx =>
      have h2 := decoderStep_escaped (s := s.withSt .afterEscape) (b := x ^^^ XORM) rfl (by simp; omega)
      rw [List.cons_append, decodeWalk_cons_ok (decoderStep_escape hs), List.cons_append, decodeWalk_cons_ok h2,
        xor_mask_twice, List.nil_append, State.pushAll_cons]
      have : ((s.withSt .afterEscape).withSt .inFrame).push x = s.push x := by
        have : (s.withSt .afterEscape).withSt .inFrame = s := by
          cases s; simp only at hs; subst hs; rfl
        rw [this]
      rw [this, hrest]
    · next hx =>
      rw [List.cons_append, decodeWalk_cons_ok (decoderStep_data hs hx (by omega)), List.nil_append, hrest,
        State.pushAll_cons]

/-- HDR and an escaped payload from WaitHeader, with the capacity for the payload. -/
theorem decodeWalk_open {p : List Byte} {s : State} (hs : s.st = .waitHeader) (hp : p.length ≤ s.cfg.N) :
    decodeWalk (HDR :: escape p) s = (State.pushAll p (s.resetCore.withSt .inFrame), none) := by
  rw [decodeWalk_cons_ok (decoderStep_header hs), decodeWalk_escape rfl]
  simpa using hp

/-- A whole frame from WaitHeader (R106). -/
theorem decodeWalk_wholeFrame {p : List Byte} {s : State} (hs : s.st = .waitHeader) (hp : p.length ≤ s.cfg.N) :
    decodeWalk (frame p) s =
      (((State.pushAll p (s.resetCore.withSt .inFrame)).withSt .waitHeader).withCompleted true, none) := by
  have h := decodeWalk_append (cs := [FTR]) (decodeWalk_open hs hp)
  rw [List.cons_append] at h
  rw [frame, h, decodeWalk_cons_ok (decoderStep_footer (by simp))]
  rfl

end Sys2Proof.Machine
end

