-- ==== Sys2Proof/Laws/PerInstr.lean ====
section
/-! SUPPORT. The family WellFramed: a command's encoding is one command word followed by exactly the data beats that word
takes (R71, R73). -/

namespace Sys2Proof.Laws.WellFramed

/-- The instruction's CMD16 encoding, where it has one, is a command word and the beats it takes. -/
def Statement (i : Instr) : Prop :=
  i.WellFormed → ∀ items, encode i = .cmd16 items →
    ∃ (w : Word16) (bs : List Byte), items = .word w :: bs.map .beat ∧ bs.length = beatCount w

/-- A word that takes no beats is framed by itself. -/
theorem single {items : List HostItem} {op : BitVec 4} {arg : BitVec 12}
    (h : Encoding.cmd16 [.word (cmdWord op arg)] = .cmd16 items) (hop : op ≠ 2 ∧ op ≠ 3) :
    ∃ (w : Word16) (bs : List Byte), items = .word w :: bs.map .beat ∧ bs.length = beatCount w := by
  obtain rfl := Encoding.cmd16.inj h
  refine ⟨_, [], rfl, ?_⟩
  rw [beatCount, opOf_cmdWord, if_neg (not_or.mpr hop)]
  rfl

/-- A word that counts its beats is framed with them. -/
theorem counted {items : List HostItem} {op : BitVec 4} {bs : List Byte} (hop : op = 2 ∨ op = 3) (hl : bs.length ≤ 4095)
    (h : Encoding.cmd16 (withBeats op bs) = .cmd16 items) :
    ∃ (w : Word16) (cs : List Byte), items = .word w :: cs.map .beat ∧ cs.length = beatCount w := by
  obtain rfl := Encoding.cmd16.inj h
  refine ⟨_, bs, rfl, ?_⟩
  rw [beatCount, opOf_cmdWord, argOf_cmdWord, if_pos hop, BitVec.toNat_ofNat]
  omega

theorem high (low : BitVec 3) : (1 : BitVec 1) ++ low ≠ 2 ∧ (1 : BitVec 1) ++ low ≠ 3 := by
  revert low; decide

theorem reset : Statement .reset := fun _ _ h => single h (by decide)
theorem encode (raw : List Byte) : Statement (.encode raw) := fun hw _ h =>
  counted (.inl rfl) (of_decide_eq_true hw) h
theorem decodeMsg (frame : List Byte) : Statement (.decodeMsg frame) := fun hw _ h =>
  counted (.inr rfl) (of_decide_eq_true hw) h
theorem decodeByte (b : Byte) : Statement (.decodeByte b) := fun _ _ h => single h (by decide)
theorem isCompleted : Statement .isCompleted := fun _ _ h => single h (by decide)
theorem size : Statement .size := fun _ _ h => single h (by decide)
theorem readByte (i : Byte) : Statement (.readByte i) := fun _ _ h => single h (by decide)
theorem reservedOp0 (arg : BitVec 12) : Statement (.reservedOp0 arg) := fun _ _ h => single h (by decide)
theorem reservedOp8F (low : BitVec 3) (arg : BitVec 12) : Statement (.reservedOp8F low arg) := fun _ _ h =>
  single h (high low)
theorem illegalNoArg (op : NoArgOp) (arg : BitVec 12) : Statement (.illegalNoArg op arg) := fun _ _ h =>
  single h (by cases op <;> exact ⟨by decide, by decide⟩)
theorem illegalByteArg (op : ByteArgOp) (hi : BitVec 4) (lo : Byte) : Statement (.illegalByteArg op hi lo) := fun _ _ h =>
  single h (by cases op <;> exact ⟨by decide, by decide⟩)
theorem rxHeader : Statement .rxHeader := fun _ _ h => by cases h
theorem rxNoise (b : Byte) : Statement (.rxNoise b) := fun _ _ h => by cases h
theorem rxFooter : Statement .rxFooter := fun _ _ h => by cases h
theorem rxEscape : Statement .rxEscape := fun _ _ h => by cases h
theorem rxCorrupt : Statement .rxCorrupt := fun _ _ h => by cases h
theorem rxData (b : Byte) : Statement (.rxData b) := fun _ _ h => by cases h
theorem rxEscaped (b : Byte) : Statement (.rxEscaped b) := fun _ _ h => by cases h
theorem txSpecial (b : Byte) : Statement (.txSpecial b) := fun _ _ h => by cases h
theorem txOrdinary (b : Byte) : Statement (.txOrdinary b) := fun _ _ h => by cases h

end Sys2Proof.Laws.WellFramed
end

