-- ==== Sys2Proof/Laws/Step.lean ====
section
/-! SUPPORT. Everything one step can do: run the command at the head of the inbox, wait, or refuse the host's items. -/

namespace Sys2Proof.Machine

theorem step_of_decode {s : State} {i : Instr} {rest : List HostItem} (h : decode s.inbox = .ok i rest) :
    step s = exec i (s.withInbox rest) := by rw [step, h]

theorem step_of_error {s : State} {e : DecodeError} (h : decode s.inbox = .error e) : step s = receiveError e s := by
  rw [step, h]

/-- A step that answers a next state ran a command or waited. -/
theorem step_eq_next {s t : State} (h : step s = .next t) :
    (∃ i rest, decode s.inbox = .ok i rest ∧ exec i (s.withInbox rest) = .next t) ∨
    ((decode s.inbox = .error .empty ∨ decode s.inbox = .error .missingBeats) ∧ t = s) := by
  cases hd : decode s.inbox with
  | ok i rest => exact .inl ⟨i, rest, rfl, step_of_decode hd ▸ h⟩
  | error e =>
    rw [step_of_error hd] at h
    cases e with
    | empty => cases h; exact .inr ⟨.inl rfl, rfl⟩
    | missingBeats => cases h; exact .inr ⟨.inr rfl, rfl⟩
    | strayBeat => cases h
    | wordAmongBeats => cases h

/-- What a command word decodes to: a command or an illegal word, never a byte class. -/
theorem decodeCommand_cases (w : Word16) (bs : List Byte) :
    decodeCommand w bs = .reset ∨ decodeCommand w bs = .encode bs ∨ decodeCommand w bs = .decodeMsg bs ∨
    (∃ b, decodeCommand w bs = .decodeByte b) ∨ decodeCommand w bs = .isCompleted ∨ decodeCommand w bs = .size ∨
    (∃ k, decodeCommand w bs = .readByte k) ∨ (∃ a, decodeCommand w bs = .reservedOp0 a) ∨
    (∃ l a, decodeCommand w bs = .reservedOp8F l a) ∨ (∃ op a, decodeCommand w bs = .illegalNoArg op a) ∨
    (∃ op hi lo, decodeCommand w bs = .illegalByteArg op hi lo) := by
  unfold decodeCommand decodeNoArg decodeByteArg
  split <;> (try split) <;> simp

end Sys2Proof.Machine
end

