-- ==== Sys2Proof/Tests/Slice0.lean ====
section
/-! SUPPORT. The model's own tests. Expected results are the vectors V-… and programs P… of 95_test_vectors.md, or the
tables of 30_encoding.md; a `witness_` theorem shows a state and operands that meet a statement's hypotheses together. -/

namespace Sys2Proof.Tests

open Sys2Proof.Machine

/-! ## Small states -/

/-- An instance of capacity 5, as most vectors have it. -/
def cfg5 : Config := ⟨5, false, by decide, by decide⟩

/-- The same with ESC_OVERFLOW_REPORT true. -/
def cfg5r : Config := ⟨5, true, by decide, by decide⟩

/-- A state by its registers and the bytes at the front of its buffer. -/
def mk (c : Config) (st : DecState) (cur : BitVec 8) (done : Bool) (bytes : List Byte) : State :=
  ⟨c, (List.range bytes.length).zip bytes, cur, st, done, [], []⟩

/-- (IF, 2, false) of section 2.3. -/
def inFrame2 : State := mk cfg5 .inFrame 2 false [0x41, 0x42]

/-- (IF, 5, false): the capacity is used up. -/
def inFrame5 : State := mk cfg5 .inFrame 5 false [1, 2, 3, 4, 5]

/-- (AE, 2, false). -/
def escaped2 : State := mk cfg5 .afterEscape 2 false [0x41, 0x42]

/-- (AE, 5, false). -/
def escaped5 : State := mk cfg5 .afterEscape 5 false [1, 2, 3, 4, 5]

/-- (WH, 6, true) after V-E2. -/
def encoded6 : State := mk cfg5 .waitHeader 6 true [0x7B, 0x7C, 0x5B, 0x7C, 0x5C, 0x7D]

/-- What a reader of the vectors sees: (st, cursor, completed), the content and the responses. -/
structure Seen where
  st : DecState
  cursor : Nat
  completed : Bool
  content : List Byte
  responses : List Word16
  deriving DecidableEq, Repr

/-- What is seen after a command. -/
def obs : Result → Option Seen
  | .next s => some ⟨s.st, s.cursor.toNat, s.completed, s.content, s.outbox⟩
  | .fault _ => none
  | .refused _ => none

/-! ## WellFormed refuses what has no encoding -/

theorem test_wf_encode_too_long : (Instr.encode (List.replicate 4096 0)).wellFormed = false := by
  simp only [Instr.wellFormed, List.length_replicate]; decide

theorem test_wf_encode_longest : (Instr.encode (List.replicate 4095 0)).wellFormed = true := by
  simp only [Instr.wellFormed, List.length_replicate]; decide

theorem test_wf_decodeMsg_too_long : (Instr.decodeMsg (List.replicate 4096 0)).wellFormed = false := by
  simp only [Instr.wellFormed, List.length_replicate]; decide

theorem test_wf_illegalNoArg_legal : (Instr.illegalNoArg .reset 0).wellFormed = false := by decide

theorem test_wf_illegalByteArg_legal : (Instr.illegalByteArg .readByte 0 5).wellFormed = false := by decide

theorem test_wf_noise_is_header : (Instr.rxNoise 0x7B).wellFormed = false := by decide

theorem test_wf_data_is_special :
    ∀ b ∈ [0x7B, 0x7C, 0x7D], (Instr.rxData b).wellFormed = false := by decide

theorem test_wf_txSpecial_is_ordinary : (Instr.txSpecial 0x20).wellFormed = false := by decide

theorem test_wf_txOrdinary_is_special : (Instr.txOrdinary 0x7C).wellFormed = false := by decide

/-! ## Decoding: a word of every row, written out from R69, R72, R65 and R62 -/

theorem test_word_reset : decode [.word 0b0001000000000000] = .ok .reset [] := by decide

theorem test_word_encode :
    decode [.word 0b0010000000000010, .beat 0b01111011, .beat 0b01111100, .word 0b0110000000000000]
      = .ok (.encode [0x7B, 0x7C]) [.word 0x6000] := by decide

theorem test_word_encode_empty : decode [.word 0b0010000000000000] = .ok (.encode []) [] := by decide

theorem test_word_decodeMsg :
    decode [.word 0b0011000000000001, .beat 0b01111101] = .ok (.decodeMsg [0x7D]) [] := by decide

theorem test_word_decodeByte : decode [.word 0b0100000001000001] = .ok (.decodeByte 0x41) [] := by decide

theorem test_word_isCompleted : decode [.word 0b0101000000000000] = .ok .isCompleted [] := by decide

theorem test_word_size : decode [.word 0b0110000000000000] = .ok .size [] := by decide

theorem test_word_readByte : decode [.word 0b0111000011111111] = .ok (.readByte 255) [] := by decide

theorem test_word_reserved_op_0 : decode [.word 0b0000000000000000] = .ok (.reservedOp0 0) [] := by decide

theorem test_word_reserved_op_8 : decode [.word 0b1000000000000001] = .ok (.reservedOp8F 0 1) [] := by decide

theorem test_word_reserved_op_F : decode [.word 0b1111000000000000] = .ok (.reservedOp8F 7 0) [] := by decide

theorem test_word_reset_with_arg : decode [.word 0b0001000000000001] = .ok (.illegalNoArg .reset 1) [] := by decide

theorem test_word_isCompleted_with_arg :
    decode [.word 0b0101000000000001] = .ok (.illegalNoArg .isCompleted 1) [] := by decide

theorem test_word_size_with_arg :
    decode [.word 0b0110100000000000] = .ok (.illegalNoArg .size 0x800) [] := by decide

theorem test_word_decodeByte_with_high_arg :
    decode [.word 0b0100000101000001] = .ok (.illegalByteArg .decodeByte 1 0x41) [] := by decide

theorem test_word_readByte_with_high_arg :
    decode [.word 0b0111000100000000] = .ok (.illegalByteArg .readByte 1 0) [] := by decide

theorem test_byte_rxHeader : decodeEncoding (.rxByte .waitHeader 0b01111011) = some .rxHeader := by decide

theorem test_byte_rxNoise :
    ∀ b ∈ [0b01111100, 0b01111101, 0b00000000],
      decodeEncoding (.rxByte .waitHeader b) = some (.rxNoise b) := by decide

theorem test_byte_rxFooter : decodeEncoding (.rxByte .inFrame 0b01111101) = some .rxFooter := by decide

theorem test_byte_rxEscape : decodeEncoding (.rxByte .inFrame 0b01111100) = some .rxEscape := by decide

theorem test_byte_rxCorrupt : decodeEncoding (.rxByte .inFrame 0b01111011) = some .rxCorrupt := by decide

theorem test_byte_rxData :
    ∀ b ∈ [0b01111010, 0b01111110, 0b01011011],
      decodeEncoding (.rxByte .inFrame b) = some (.rxData b) := by decide

theorem test_byte_rxEscaped :
    ∀ b ∈ [0b01111011, 0b01111100, 0b01111101, 0b01000001],
      decodeEncoding (.rxByte .afterEscape b) = some (.rxEscaped b) := by decide

theorem test_byte_txSpecial :
    ∀ b ∈ [0b01111011, 0b01111100, 0b01111101],
      decodeEncoding (.txByte b) = some (.txSpecial b) := by decide

theorem test_byte_txOrdinary :
    ∀ b ∈ [0b00100000, 0b01011011, 0b01111010, 0b01111110],
      decodeEncoding (.txByte b) = some (.txOrdinary b) := by decide

theorem test_stream_rejected_by_name :
    decode [] = .error .empty ∧ decode [.word 0x2001] = .error .missingBeats ∧
    decode [.beat 0x7B] = .error .strayBeat ∧ decode [.word 0x2001, .word 0x6000] = .error .wordAmongBeats := by decide

theorem test_asm_text :
    asm (.encode [0x7B, 0x7C]) = some "ENCODE [0x7b, 0x7c]" ∧ asm (.readByte 2) = some "READ_BYTE 0x02" := by decide

/-! ## One step of each instruction -/

/-- V-B1. -/
theorem test_reset : obs (exec .reset (mk cfg5 .inFrame 3 false [1, 2, 3])) = some ⟨.waitHeader, 0, false, [], [0x8000]⟩ := by
  decide

/-- V-B1: the buffer is unchanged. -/
theorem test_reset_keeps_buffer :
    exec .reset inFrame2 = .next { mk cfg5 .waitHeader 0 false [0x41, 0x42] with outbox := [0x8000] } := rfl

/-- V-E6: N special bytes fill the whole buffer. -/
theorem test_encode_fills_buffer :
    obs (exec (.encode [0x7B, 0x7B, 0x7B, 0x7B, 0x7B]) inFrame2) = some ⟨.waitHeader, 12, true,
      [0x7B, 0x7C, 0x5B, 0x7C, 0x5B, 0x7C, 0x5B, 0x7C, 0x5B, 0x7C, 0x5B, 0x7D], [0x8000]⟩ := by decide

/-- V-E5: six ordinary bytes do not fit five. -/
theorem test_encode_too_long :
    obs (exec (.encode [0x5B, 0x5C, 0x5D, 0x20, 0x00, 0xFF]) encoded6) =
      some ⟨.waitHeader, 0, false, [], [0x1000]⟩ := by decide

/-- V-M11: the second of two frames in one input. -/
theorem test_decodeMsg_second_frame :
    obs (exec (.decodeMsg [0x7B, 0x7D, 0x7B, 0x42, 0x7D]) inFrame2) =
      some ⟨.waitHeader, 1, true, [0x42], [0x8000]⟩ := by decide

/-- V-M9 and V-M10, for both values of ESC_OVERFLOW_REPORT. -/
theorem test_decodeMsg_escape_overflow :
    obs (exec (.decodeMsg [0x7B, 1, 2, 3, 4, 5, 0x7C, 0x5B, 0x7D]) encoded6) =
      some ⟨.waitHeader, 0, false, [], [0x3000]⟩ ∧
    obs (exec (.decodeMsg [0x7B, 1, 2, 3, 4, 5, 0x7C, 0x5B, 0x7D]) { encoded6 with cfg := cfg5r }) =
      some ⟨.waitHeader, 0, false, [], [0x1000]⟩ ∧
    obs (exec (.decodeMsg [0x7B, 1, 2, 3, 4, 5, 0x7C, 0x5B, 0x7B, 0x41, 0x7D]) encoded6) =
      some ⟨.waitHeader, 1, true, [0x41], [0x8000]⟩ := by decide

/-- V-D3 and V-D5: a byte after a result discards it, and a footer in WaitHeader is noise. -/
theorem test_decodeByte_noise :
    obs (exec (.decodeByte 0x41) (mk cfg5 .waitHeader 3 true [0x7B, 0x5B, 0x7D])) =
      some ⟨.waitHeader, 0, false, [], [0x8000]⟩ ∧
    obs (exec (.decodeByte 0x7D) (mk cfg5 .waitHeader 0 false [])) =
      some ⟨.waitHeader, 0, false, [], [0x8000]⟩ := by decide

/-- V-D22 and V-D14: a header after an escape is data, in a frame it is corruption even at the capacity. -/
theorem test_decodeByte_header_in_frame :
    obs (exec (.decodeByte 0x7B) escaped2) = some ⟨.inFrame, 3, false, [0x41, 0x42, 0x5B], [0x8000]⟩ ∧
    obs (exec (.decodeByte 0x7B) inFrame5) = some ⟨.waitHeader, 0, false, [], [0x2000]⟩ := by decide

/-- V-B2 and V-B3. -/
theorem test_isCompleted :
    obs (exec .isCompleted (mk cfg5 .waitHeader 2 true [0x7B, 0x7C])) =
      some ⟨.waitHeader, 2, true, [0x7B, 0x7C], [0x8001]⟩ ∧
    obs (exec .isCompleted (mk cfg5 .inFrame 1 false [0x41])) =
      some ⟨.inFrame, 1, false, [0x41], [0x8000]⟩ := by decide

/-- V-B4. -/
theorem test_size : exec .size encoded6 = .next { encoded6 with outbox := [0x8006] } := rfl

/-- V-B5 and V-B6. -/
theorem test_readByte :
    exec (.readByte 2) encoded6 = .next { encoded6 with outbox := [0x805B] } ∧
    exec (.readByte 6) encoded6 = .next { encoded6 with outbox := [0x4000] } := ⟨rfl, rfl⟩

/-- V-B9 to V-B14, each changing nothing. -/
theorem test_illegal_words :
    exec (.reservedOp0 0) inFrame2 = .next { inFrame2 with outbox := [0x5000] } ∧
    exec (.reservedOp8F 0 0) inFrame2 = .next { inFrame2 with outbox := [0x5000] } ∧
    exec (.illegalNoArg .reset 1) inFrame2 = .next { inFrame2 with outbox := [0x5000] } ∧
    exec (.illegalByteArg .decodeByte 1 0x41) inFrame2 = .next { inFrame2 with outbox := [0x5000] } :=
  ⟨rfl, rfl, rfl, rfl⟩

/-- V-D2 and V-D1. -/
theorem test_rxHeader_and_rxNoise :
    obs (exec .rxHeader (mk cfg5 .waitHeader 3 true [0x7B, 0x5B, 0x7D])) = some ⟨.inFrame, 0, false, [], [0x8000]⟩ ∧
    obs (exec (.rxNoise 0x00) (mk cfg5 .waitHeader 3 true [0x7B, 0x5B, 0x7D])) =
      some ⟨.waitHeader, 0, false, [], [0x8000]⟩ := by decide

/-- V-D13: the footer closes at the capacity. -/
theorem test_rxFooter : obs (exec .rxFooter inFrame5) = some ⟨.waitHeader, 5, true, [1, 2, 3, 4, 5], [0x8000]⟩ := by
  decide

/-- V-D15: an escape is taken at the capacity. -/
theorem test_rxEscape : obs (exec .rxEscape inFrame5) = some ⟨.afterEscape, 5, false, [1, 2, 3, 4, 5], [0x8000]⟩ := by
  decide

/-- V-D9. -/
theorem test_rxCorrupt : obs (exec .rxCorrupt inFrame2) = some ⟨.waitHeader, 0, false, [], [0x2000]⟩ := by decide

/-- V-D10 and V-D12. -/
theorem test_rxData :
    obs (exec (.rxData 0x41) inFrame2) = some ⟨.inFrame, 3, false, [0x41, 0x42, 0x41], [0x8000]⟩ ∧
    obs (exec (.rxData 0x41) inFrame5) = some ⟨.waitHeader, 0, false, [], [0x1000]⟩ := by decide

/-- V-D20 and V-D26, for both values of ESC_OVERFLOW_REPORT. -/
theorem test_rxEscaped :
    obs (exec (.rxEscaped 0x41) escaped2) = some ⟨.inFrame, 3, false, [0x41, 0x42, 0x61], [0x8000]⟩ ∧
    obs (exec (.rxEscaped 0x5B) escaped5) = some ⟨.waitHeader, 0, false, [], [0x8000]⟩ ∧
    obs (exec (.rxEscaped 0x5B) { escaped5 with cfg := cfg5r }) =
      some ⟨.waitHeader, 0, false, [], [0x1000]⟩ := by decide

/-- V-C1 and V-C5. -/
theorem test_tx_rows :
    obs (exec (.txSpecial 0x7B) (mk cfg5 .waitHeader 1 false [0x7B])) =
      some ⟨.waitHeader, 3, false, [0x7B, 0x7C, 0x5B], []⟩ ∧
    obs (exec (.txOrdinary 0x5B) (mk cfg5 .waitHeader 1 false [0x7B])) =
      some ⟨.waitHeader, 2, false, [0x7B, 0x5B], []⟩ := by decide

/-- The first step after reset runs a placed word of either format (V-E1, R122). -/
theorem test_first_step_after_reset :
    obs (step (State.reset.withFetchWord 16 0x2000)) = some ⟨.waitHeader, 2, true, [0x7B, 0x7D], [0x8000]⟩ ∧
    obs (step (State.reset.withFetchWord 8 0x7D)) = some ⟨.waitHeader, 0, true, [], [0x8000]⟩ := by decide

/-! ## Witnesses: hypotheses that hold together, for each clause, where its range ends -/

theorem witness_InstanceMadeForCapacityInRange :
    Config.make? 1 true = some ⟨1, true, by decide, by decide⟩ ∧
    Config.make? 126 false = some ⟨126, false, by decide, by decide⟩ ∧
    Config.make? 0 true = none ∧ Config.make? 127 true = none := ⟨rfl, rfl, rfl, rfl⟩

theorem witness_ParametersNeverChange :
    (∃ t, exec .reset inFrame2 = .next t) ∧ ∃ t, step { inFrame2 with inbox := [.word 0x1000] } = .next t :=
  ⟨⟨_, rfl⟩, ⟨_, rfl⟩⟩

theorem witness_ReadByteReadsContentOnly :
    encoded6.cursor.toNat ≤ encoded6.cfg.bufSize ∧ (5 : Byte).toNat < encoded6.cursor.toNat ∧
    encoded6.cursor.toNat ≤ (6 : Byte).toNat := by decide

theorem witness_ReadByteReadsContentOnly_full :
    let s := mk cfg5 .waitHeader 12 true []
    s.cursor.toNat ≤ s.cfg.bufSize ∧ (11 : Byte).toNat < s.cursor.toNat ∧ s.cursor.toNat ≤ (255 : Byte).toNat := by
  decide

theorem witness_ReadByteOutsideContentFailsRange :
    inFrame2.cursor.toNat ≤ (2 : Byte).toNat ∧ (mk cfg5 .waitHeader 13 true []).cfg.bufSize ≤ (12 : Byte).toNat := by
  decide

theorem witness_ContentsSequenceReturnsContent : encoded6.cursor.toNat ≤ encoded6.cfg.bufSize := by decide

theorem witness_OneResponsePerCommand :
    (∃ t, exec .size inFrame2 = .next t) ∧ (∃ t, exec (.rxData 0x41) inFrame2 = .next t) ∧
    (∃ t, exec (.txSpecial 0x7B) inFrame2 = .next t) ∧ ∃ t, exec (.txOrdinary 0x41) inFrame2 = .next t :=
  ⟨⟨_, rfl⟩, ⟨_, rfl⟩, ⟨_, rfl⟩, ⟨_, rfl⟩⟩

theorem witness_IllegalWordsChangeNothing :
    (∀ w : Word16, ∃ s : State, s.inbox = HostItem.word w :: []) ∧
    opOf 0x0FFF = 0x0 ∧ 8 ≤ (opOf 0x8000).toNat ∧ 8 ≤ (opOf 0xFFFF).toNat ∧
    (opOf 0x1001 = 0x1 ∧ argOf 0x1001 ≠ 0) ∧ (opOf 0x5FFF = 0x5 ∧ argOf 0x5FFF ≠ 0) ∧
    (opOf 0x6001 = 0x6 ∧ argOf 0x6001 ≠ 0) ∧ (opOf 0x4100 = 0x4 ∧ argHiOf 0x4100 ≠ 0) ∧
    (opOf 0x7FFF = 0x7 ∧ argHiOf 0x7FFF ≠ 0) :=
  ⟨fun w => ⟨{ inFrame2 with inbox := [.word w] }, rfl⟩, by decide⟩

theorem witness_FrameShape : escape [0x7B] = [] ++ ESC :: [0x5B] := by decide

theorem witness_EncodeLeavesFrame :
    ([0x7B, 0x7B, 0x7B, 0x7B, 0x7B] : List Byte).length ≤ inFrame2.cfg.N ∧
    ∃ t, exec (.encode [0x7B, 0x7B, 0x7B, 0x7B, 0x7B]) inFrame2 = .next t ∧ t.cursor.toNat ≤ 12 :=
  ⟨by decide, _, rfl, by decide⟩

theorem witness_EncodeTooLongOnlyResets : inFrame2.cfg.N < ([1, 2, 3, 4, 5, 6] : List Byte).length := by decide

theorem witness_EncodeFailsIffTooLong :
    respOk 0x1000 = false ∧ respOk 0x8000 = true ∧
    ∃ t, exec (.encode [1, 2, 3, 4, 5, 6]) inFrame2 = .next t ∧ t.outbox = inFrame2.outbox ++ [0x1000] :=
  ⟨by decide, by decide, _, rfl, by decide⟩

theorem witness_EncodeStaysInBuffer :
    ∃ t, exec (.encode [0x7B, 0x7B, 0x7B, 0x7B, 0x7B]) inFrame2 = .next t ∧ inFrame2.cfg.bufSize ≤ 12 :=
  ⟨_, rfl, by decide⟩

theorem witness_TxRowsAppendEscapedByte :
    (Special 0x7D ∧ (mk cfg5 .waitHeader 10 false []).cursor.toNat + 2 ≤ (mk cfg5 .waitHeader 10 false []).cfg.bufSize) ∧
    (¬ Special 0x20 ∧
      (mk cfg5 .waitHeader 11 false []).cursor.toNat + 1 ≤ (mk cfg5 .waitHeader 11 false []).cfg.bufSize) := by decide

theorem witness_TxRowsFaultOutsideBuffer :
    (mk cfg5 .waitHeader 11 false []).cfg.bufSize < (mk cfg5 .waitHeader 11 false []).cursor.toNat + 2 ∧
    (mk cfg5 .waitHeader 12 false []).cfg.bufSize < (mk cfg5 .waitHeader 12 false []).cursor.toNat + 1 := by decide

theorem witness_EncodeRunsTxRows : ([0x7B, 1, 2, 3, 4] : List Byte).length ≤ inFrame2.cfg.N := by decide

theorem witness_EncodeAbandonsFrame :
    (∃ t, exec (.encode [0x42]) inFrame2 = .next t) ∧ HDR ∉ ([0x43, 0x7D] : List Byte) := ⟨⟨_, rfl⟩, by decide⟩

theorem witness_RxWaitHeaderRows : (0x7C : Byte) ≠ HDR ∧ (0x7D : Byte) ≠ HDR := by decide

theorem witness_RxDataAppendsOrOverflows :
    ¬ Special 0x5B ∧ (mk cfg5 .inFrame 4 false [1, 2, 3, 4]).cursor.toNat < (mk cfg5 .inFrame 4 false [1, 2, 3, 4]).cfg.N ∧
    inFrame5.cfg.N ≤ inFrame5.cursor.toNat := by decide

theorem witness_RxEscapedAppendsOrResets :
    (mk cfg5 .afterEscape 4 false [1, 2, 3, 4]).cursor.toNat < (mk cfg5 .afterEscape 4 false [1, 2, 3, 4]).cfg.N ∧
    escaped5.cfg.N ≤ escaped5.cursor.toNat := by decide

theorem witness_DecodeByteTransitionTable_waitHeader :
    let s := mk cfg5 .waitHeader 3 true [1, 2, 3]
    (s.st ≠ .waitHeader → s.completed = false) ∧ s.st = .waitHeader ∧ (0x7C : Byte) ≠ 0x7B := by decide

theorem witness_DecodeByteTransitionTable_inFrame :
    (inFrame5.st ≠ .waitHeader → inFrame5.completed = false) ∧ inFrame5.st = .inFrame ∧
    ¬ Special 0x7A ∧ ¬ Special 0x7E ∧ inFrame5.cfg.N ≤ inFrame5.cursor.toNat ∧
    inFrame2.st = .inFrame ∧ (inFrame2.st ≠ .waitHeader → inFrame2.completed = false) ∧
    inFrame2.cursor.toNat < inFrame2.cfg.N := by decide

theorem witness_DecodeByteTransitionTable_afterEscape :
    (escaped5.st ≠ .waitHeader → escaped5.completed = false) ∧ escaped5.st = .afterEscape ∧
    escaped5.cfg.N ≤ escaped5.cursor.toNat ∧ escaped2.st = .afterEscape ∧
    (escaped2.st ≠ .waitHeader → escaped2.completed = false) ∧ escaped2.cursor.toNat < escaped2.cfg.N := by decide

theorem witness_EscOverflowReportChangesOnlyResponse :
    cfg5r.N = escaped5.cfg.N ∧ escaped5.st = .afterEscape ∧ escaped5.cfg.N ≤ escaped5.cursor.toNat ∧
    ¬ (escaped2.st = .afterEscape ∧ escaped2.cfg.N ≤ escaped2.cursor.toNat) ∧
    (∃ t, exec (.decodeByte 0x5B) escaped5 = .next t) ∧
    (∃ u, exec (.decodeByte 0x5B) { escaped5 with cfg := cfg5r } = .next u) ∧
    (∃ t, exec (.decodeByte 0x5B) escaped2 = .next t) ∧
    ∃ u, exec (.decodeByte 0x5B) { escaped2 with cfg := cfg5r } = .next u :=
  ⟨rfl, rfl, by decide, by decide, ⟨_, rfl⟩, ⟨_, rfl⟩, ⟨_, rfl⟩, ⟨_, rfl⟩⟩

/-- The three clauses: a byte that fails, a last byte that closes a frame, and an input that ends too soon. -/
theorem witness_DecodeMsgEqualsHostSequence :
    (hostFeed [0x7B, 0x7B] inFrame2.resetCore).2 = some 0x2000 ∧
    ((hostFeed [0x7B, 0x7D] inFrame2.resetCore).2 = none ∧
      (hostFeed [0x7B, 0x7D] inFrame2.resetCore).1.completed = true) ∧
    ((hostFeed [] inFrame2.resetCore).2 = none ∧ (hostFeed [] inFrame2.resetCore).1.completed = false) := by decide

theorem witness_DecodeMsgSucceedsIffEndsOnFooter :
    ∃ u, hostFeed [0x7B] inFrame2.resetCore = (u, none) ∧ u.st = .inFrame := ⟨_, rfl, rfl⟩

theorem witness_RoundTripRestoresPayload : ([0x00, 0x7D, 0xFF, 0x7B, 0x7C] : List Byte).length ≤ inFrame2.cfg.N := by
  decide

theorem witness_StreamResynchronises :
    ((inFrame2.st ≠ .waitHeader → inFrame2.completed = false) ∧ ∃ t, exec (.decodeByte FTR) inFrame2 = .next t) ∧
    encoded6.st = .waitHeader ∧ HDR ∉ ([0x00, 0x7D, 0x41] : List Byte) ∧ HDR ∉ ([0x42, 0x7C] : List Byte) ∧
    ([1, 2, 3, 4, 5] : List Byte).length ≤ encoded6.cfg.N ∧ ([] : List Byte).length ≤ encoded6.cfg.N :=
  ⟨⟨by decide, _, rfl⟩, by decide⟩

theorem witness_PollingFindsCompletionWindow :
    encoded6.st = .waitHeader ∧ ([0x7B, 0x7C, 0x7D, 1, 2] : List Byte).length ≤ encoded6.cfg.N := by decide

theorem witness_UnescapedHeaderIsCorruption :
    ∃ u, hostFeed [0x7B, 1, 2, 3, 4, 5] inFrame2.resetCore = (u, none) ∧ u.st = .inFrame := ⟨_, rfl, rfl⟩

theorem witness_LongPayloadIsRefused :
    ([1, 2, 3, 4, 5] : List Byte).length = inFrame2.cfg.N ∧ ¬ Special 6 ∧
    (Special 0x7B ∧ inFrame2.cfg.escOverflowReport = false) ∧
    ({ inFrame2 with cfg := cfg5r } : State).cfg.escOverflowReport = true ∧
    ([1, 2, 3, 4, 5] : List Byte).length = ({ inFrame2 with cfg := cfg5r } : State).cfg.N ∧
    ([1, 2, 3, 4, 5] : List Byte).length ≤ inFrame2.cfg.N := by decide

/-- Noise, and an escape pair that no encoder makes, before the capacity is used up; for both values of
ESC_OVERFLOW_REPORT. -/
theorem witness_OverflowInsideMessage :
    (∃ u, hostFeed [0x00, 0x7B, 1, 2, 0x7C, 0x41, 4, 5] inFrame2.resetCore = (u, none) ∧ u.st = .inFrame ∧
      u.cursor.toNat = inFrame2.cfg.N) ∧
    (∃ u, hostFeed [0x00, 0x7B, 1, 2, 0x7C, 0x41, 4, 5] ({ inFrame2 with cfg := cfg5r } : State).resetCore = (u, none) ∧
      u.st = .inFrame ∧ u.cursor.toNat = ({ inFrame2 with cfg := cfg5r } : State).cfg.N) ∧
    ¬ Special 0x5B ∧ inFrame2.cfg.escOverflowReport = false ∧
    ({ inFrame2 with cfg := cfg5r } : State).cfg.escOverflowReport = true ∧ HDR ∉ ([0x7C, 0x5D, 0x7D] : List Byte) :=
  ⟨⟨_, rfl, rfl, rfl⟩, ⟨_, rfl, rfl, rfl⟩, by decide⟩

theorem witness_TrailingByteIsTruncation : ([1, 2, 3, 4, 5] : List Byte).length ≤ inFrame2.cfg.N := by decide

theorem witness_NoStateWedgesDecoder : ([0x7B, 0x7C, 0x7D, 1, 2] : List Byte).length ≤ escaped5.cfg.N := by decide

theorem witness_CodecFailuresLeaveResetState :
    (∃ t, exec (.encode [1, 2, 3, 4, 5, 6]) inFrame2 = .next t ∧ t.outbox = inFrame2.outbox ++ [0x1000]) ∧
    (∃ t, exec .rxCorrupt inFrame2 = .next t ∧ t.outbox = inFrame2.outbox ++ [0x2000]) ∧
    (∃ t, exec (.decodeMsg []) inFrame2 = .next t ∧ t.outbox = inFrame2.outbox ++ [0x3000]) ∧
    (escaped5.st = .afterEscape ∧ escaped5.cfg.N ≤ escaped5.cursor.toNat ∧
      ∃ t, exec (.decodeByte 0x5B) escaped5 = .next t) :=
  ⟨⟨_, rfl, rfl⟩, ⟨_, rfl, rfl⟩, ⟨_, rfl, rfl⟩, rfl, by decide, _, rfl⟩

/-- One state and instruction for each way `completed` is set. -/
theorem witness_CompletedFlagWriters_set :
    (∃ t, exec (.encode []) inFrame2 = .next t ∧ inFrame2.completed = false ∧ t.completed = true) ∧
    (∃ t, exec (.decodeByte 0x7D) inFrame5 = .next t ∧ inFrame5.completed = false ∧ t.completed = true) ∧
    (∃ t, exec .rxFooter inFrame2 = .next t ∧ inFrame2.completed = false ∧ t.completed = true) ∧
    ∃ t u, exec (.decodeMsg ([0x7B, 0x41] ++ [FTR])) inFrame2 = .next t ∧ inFrame2.completed = false ∧
      t.completed = true ∧ hostFeed [0x7B, 0x41] inFrame2.resetCore = (u, none) ∧ u.st = .inFrame :=
  ⟨⟨_, rfl, rfl, rfl⟩, ⟨_, rfl, rfl, rfl⟩, ⟨_, rfl, rfl, rfl⟩, _, _, rfl, rfl, rfl, rfl, rfl⟩

/-- One for each state it is cleared to, and a DECODE_MSG that stores before it fails. -/
theorem witness_CompletedFlagWriters_cleared :
    encoded6.completed = true ∧
    (∃ t, exec (.decodeByte 0x00) encoded6 = .next t ∧ t.completed = false ∧ t.st = .waitHeader) ∧
    (∃ t, exec (.decodeByte HDR) encoded6 = .next t ∧ t.completed = false ∧ t.st = .inFrame) ∧
    (∃ t, exec .rxHeader encoded6 = .next t ∧ t.completed = false ∧ t.st = .inFrame) ∧
    ∃ t, exec (.decodeMsg [0x7B, 0x41]) encoded6 = .next t ∧ t.completed = false ∧ t.buf ≠ encoded6.buf :=
  ⟨rfl, ⟨_, rfl, rfl, rfl⟩, ⟨_, rfl, rfl, rfl⟩, ⟨_, rfl, rfl, rfl⟩, _, rfl, rfl, by decide⟩

theorem witness_RepeatedCommandsAgree :
    ∃ t u, exec (.encode [0x7B]) inFrame2 = .next t ∧ exec (.encode [0x7B]) t = .next u := ⟨_, _, rfl, rfl⟩

theorem witness_NonStoringInstructionsKeepBuffer :
    (∃ t, exec .rxCorrupt inFrame2 = .next t) ∧ ∃ t, exec (.readByte 1) inFrame2 = .next t := ⟨⟨_, rfl⟩, ⟨_, rfl⟩⟩

theorem witness_DecodingWritesBelowCapacity :
    (∃ t, exec (.decodeByte 0x41) (mk cfg5 .inFrame 4 false [1, 2, 3, 4]) = .next t) ∧
    (∃ t, exec (.decodeMsg [0x7B, 1, 2, 3, 4, 5, 0x7D]) encoded6 = .next t) ∧
    (∃ t, exec (.rxData 0x41) inFrame5 = .next t) ∧ ∃ t, exec (.rxEscaped 0x41) escaped2 = .next t :=
  ⟨⟨_, rfl⟩, ⟨_, rfl⟩, ⟨_, rfl⟩, ⟨_, rfl⟩⟩

/-- A state inside a frame at the capacity meets the invariants, and a step runs from it. -/
theorem witness_StepKeepsInvariants :
    Invariants { inFrame5 with inbox := [.word 0x407D] } ∧
    ∃ t, step { inFrame5 with inbox := [.word 0x407D] } = .next t :=
  ⟨⟨by decide, by decide, by decide, by decide, by decide, by decide, by decide⟩, _, rfl⟩

/-- Two states that differ in a stale byte only. -/
theorem witness_StaleBytesAreUnobservable :
    let s := { mk cfg5 .inFrame 1 false [0x41, 0x42] with inbox := [.word 0x4043] }
    let t := { mk cfg5 .inFrame 1 false [0x41, 0xFF] with inbox := [.word 0x4043] }
    SameButStale s t ∧ s ≠ t ∧ (∃ s', step s = .next s') ∧ ∃ s', runSteps 2 s = .next s' :=
  ⟨⟨⟨rfl, rfl, rfl, rfl⟩, by decide, rfl, rfl⟩, by decide, ⟨_, rfl⟩, _, rfl⟩

theorem witness_StepStopsOnlyOnHostDisorder :
    HostKeepsOrder { inFrame2 with inbox := [.word 0x6000] } ∧ ¬ HostKeepsOrder { inFrame2 with inbox := [.beat 0] } ∧
    ¬ HostKeepsOrder { inFrame2 with inbox := [.word 0x2001, .word 0x6000] } := by
  refine ⟨⟨by decide, by decide⟩, fun h => h.1 (by decide), fun h => h.2 (by decide)⟩

theorem witness_StepRunsDecodedInstruction :
    decode ({ inFrame2 with inbox := [.word 0x2001, .beat 0x7D, .word 0x6000] } : State).inbox =
      .ok (.encode [0x7D]) [.word 0x6000] := by decide

theorem witness_StepTakesWordAndAllBeats :
    (Instr.encode [1, 2, 3, 4, 5, 6]).WellFormed ∧
    encode (.encode [1, 2, 3, 4, 5, 6]) =
      .cmd16 [.word 0x2006, .beat 1, .beat 2, .beat 3, .beat 4, .beat 5, .beat 6] := by decide

theorem witness_BlockWaitsForCompleteCommand :
    inFrame2.inbox = [] ∧
    ({ inFrame2 with inbox := [.word 0x2002, .beat 1] } : State).inbox = .word 0x2002 :: [1].map .beat ∧
    ([1] : List Byte).length < beatCount 0x2002 := by decide

theorem witness_InstancesAreIndependent :
    ∃ ts, stepInstance 1 [inFrame2, { escaped5 with inbox := [.word 0x1000] }] = .next ts := ⟨_, rfl⟩

theorem witness_CommandWordsDecodeByMask :
    (0x1000 : Word16) &&& 0xFFFF = 0x1000 ∧ (0x2FFF : Word16) &&& 0xF000 = 0x2000 ∧
    (0x3000 : Word16) &&& 0xF000 = 0x3000 ∧ (0x40FF : Word16) &&& 0xFF00 = 0x4000 ∧
    (0x5000 : Word16) &&& 0xFFFF = 0x5000 ∧ (0x6000 : Word16) &&& 0xFFFF = 0x6000 ∧
    (0x70FF : Word16) &&& 0xFF00 = 0x7000 := by decide

theorem witness_DecodeOfEncodeIsInstruction :
    (Instr.illegalByteArg .readByte 15 255).WellFormed ∧ (Instr.rxData 0x7E).WellFormed ∧
    (Instr.encode [0x7B]).WellFormed := by decide

theorem witness_EncodeOfDecodeIsEncoding :
    decodeEncoding (.cmd16 [.word 0x2001, .beat 0x7B]) = some (.encode [0x7B]) := by decide

end Sys2Proof.Tests
end

section
/-! The family of 00_scope.md: the capacity an instance is made for (R5, R6), and what ESC_OVERFLOW_REPORT decides (R7). -/

namespace Sys2Proof

/-- Making an instance gives the parameters asked for, and every `Config` can be made. -/
theorem Config.make?_eq_some_iff {n : Nat} {report : Bool} {c : Config} :
    Config.make? n report = some c ↔ c.N = n ∧ c.escOverflowReport = report := by
  constructor
  · intro h
    unfold Config.make? at h
    split at h
    · cases h
      exact ⟨rfl, rfl⟩
    · cases h
  · rintro ⟨rfl, rfl⟩
    exact dif_pos ⟨c.N_pos, c.N_le⟩

/-- Settles O2: every `Config` carries 1 ≤ N ≤ 126 as proofs, and making one fails only for want of them. -/
theorem instanceMadeForCapacityInRange : Obligations.InstanceMadeForCapacityInRange := by
  refine ⟨fun n report => ⟨?_, fun ⟨hpos, hle⟩ => ?_⟩, fun n report c hc => Config.make?_eq_some_iff.mp hc, fun c => ?_⟩
  · rintro ⟨c, hc⟩
    obtain ⟨rfl, -⟩ := Config.make?_eq_some_iff.mp hc
    exact ⟨c.N_pos, c.N_le⟩
  · exact ⟨⟨n, report, hpos, hle⟩, Config.make?_eq_some_iff.mpr ⟨rfl, rfl⟩⟩
  · have hpos := c.N_pos
    exact ⟨rfl, by rw [Config.bufSize]; omega, Machine.bufSize_le c⟩

end Sys2Proof

namespace Sys2Proof.Machine

/-- DECODE_BYTE is one transition and its response (R120). -/
@[simp] theorem exec_decodeByte (b : Byte) (s : State) :
    exec (.decodeByte b) s = .next ((decoderStep b s).1.respond (decoderStep b s).2) := rfl

/-- The word that reports the overflow of an escaped byte (R7, R126). -/
theorem toWord_escOverflowResponse (c : Config) :
    (escOverflowResponse c).toWord = if c.escOverflowReport = true then 0x1000 else 0x8000 := by
  unfold escOverflowResponse
  split <;> rfl

/-- Under other parameters of the same capacity a transition leaves the same state, whatever the decoder state, and
gives the same response but for the overflow of an escaped byte (R7, R126). -/
theorem decoderStep_of_same_capacity (b : Byte) {s : State} {c : Config} (hN : c.N = s.cfg.N) :
    decoderStep b { s with cfg := c } =
      ({ (decoderStep b s).1 with cfg := c },
        if s.st = .afterEscape ∧ s.cfg.N ≤ s.cursor.toNat then escOverflowResponse c else (decoderStep b s).2) := by
  rcases decoderStep_cases b s with ⟨hs, rfl, h⟩ | ⟨hs, hb, h⟩ | ⟨hs, rfl, h⟩ | ⟨hs, rfl, h⟩ | ⟨hs, rfl, h⟩ |
    ⟨hs, hb, hc, h⟩ | ⟨hs, hb, hc, h⟩ | ⟨hs, hc, h⟩ | ⟨hs, hc, h⟩
  · rw [h, if_neg (by simp [hs]), decoderStep_header (s := { s with cfg := c }) hs]; rfl
  · rw [h, if_neg (by simp [hs]), decoderStep_noise (s := { s with cfg := c }) hs hb]; rfl
  · rw [h, if_neg (by simp [hs]), decoderStep_footer (s := { s with cfg := c }) hs]; rfl
  · rw [h, if_neg (by simp [hs]), decoderStep_escape (s := { s with cfg := c }) hs]; rfl
  · rw [h, if_neg (by simp [hs]), decoderStep_corrupt (s := { s with cfg := c }) hs]; rfl
  · rw [h, if_neg (by simp [hs]), decoderStep_data (s := { s with cfg := c }) hs hb (hN ▸ hc)]; rfl
  · rw [h, if_neg (by simp [hs]), decoderStep_dataFull (s := { s with cfg := c }) hs hb (hN ▸ hc)]; rfl
  · rw [h, if_neg (by simp [hc]), decoderStep_escaped (s := { s with cfg := c }) hs (hN ▸ hc)]; rfl
  · rw [h, if_pos ⟨hs, hc⟩, decoderStep_escapedFull (s := { s with cfg := c }) hs (hN ▸ hc)]; rfl

/-- Settles O30: the transition under the other parameters is the transition itself but for the response to the
overflow of an escaped byte. -/
theorem escOverflowReportChangesOnlyResponse : Obligations.EscOverflowReportChangesOnlyResponse := by
  intro s t u b c hN ht hu
  obtain ⟨-, -, hout⟩ := decoderStep_frame b s
  rw [exec_decodeByte] at ht hu
  rw [decoderStep_of_same_capacity b hN] at hu
  cases ht
  cases hu
  refine ⟨rfl, fun hroom => ?_, fun hs hc => ?_⟩
  · simp [hroom]
  · simp [hs, hc, hout, toWord_escOverflowResponse]

end Sys2Proof.Machine
end

section
/-! The family of 10_state.md, first layer: what each instruction leaves, case by case, and the frame that every
instruction keeps (R25, R29). -/

namespace Sys2Proof.Machine

/-! ## The instructions by what they leave -/

/-- The instructions that return a response and change nothing else: the read commands (R151 to R153) and the illegal
words (R176). -/
inductive OnlyAnswers : Instr → Prop where
  | isCompleted : OnlyAnswers .isCompleted
  | size : OnlyAnswers .size
  | readByte (k : Byte) : OnlyAnswers (.readByte k)
  | reservedOp0 (arg : BitVec 12) : OnlyAnswers (.reservedOp0 arg)
  | reservedOp8F (low : BitVec 3) (arg : BitVec 12) : OnlyAnswers (.reservedOp8F low arg)
  | illegalNoArg (op : NoArgOp) (arg : BitVec 12) : OnlyAnswers (.illegalNoArg op arg)
  | illegalByteArg (op : ByteArgOp) (hi : BitVec 4) (lo : Byte) : OnlyAnswers (.illegalByteArg op hi lo)

/-- READ_BYTE by its two outcomes (R153). -/
theorem exec_readByte_cases (k : Byte) (s : State) :
    (s.readable k.toNat ∧ exec (.readByte k) s = .next (s.respond (.ok (s.bufRead k.toNat)))) ∨
    (¬ s.readable k.toNat ∧ exec (.readByte k) s = .next (s.respond (.fail .range))) := by
  by_cases h : s.readable k.toNat
  · exact .inl ⟨h, if_pos h⟩
  · exact .inr ⟨h, if_neg h⟩

theorem exec_of_onlyAnswers {i : Instr} (h : OnlyAnswers i) (s : State) : ∃ r, exec i s = .next (s.respond r) := by
  cases h with
  | readByte k =>
    obtain ⟨-, h⟩ | ⟨-, h⟩ := exec_readByte_cases k s
    · exact ⟨_, h⟩
    · exact ⟨_, h⟩
  | _ => exact ⟨_, rfl⟩

/-- What a command word decodes to: one of the four commands of the codec, or an instruction that only answers. -/
theorem decodeCommand_codec_or_onlyAnswers (w : Word16) (bs : List Byte) :
    decodeCommand w bs = .reset ∨ decodeCommand w bs = .encode bs ∨ decodeCommand w bs = .decodeMsg bs ∨
    (∃ b, decodeCommand w bs = .decodeByte b) ∨ OnlyAnswers (decodeCommand w bs) := by
  obtain h | h | h | h | hread := decodeCommand_cases w bs
  · exact .inl h
  · exact .inr (.inl h)
  · exact .inr (.inr (.inl h))
  · exact .inr (.inr (.inr (.inl h)))
  · refine .inr (.inr (.inr (.inr ?_)))
    obtain h | h | ⟨_, h⟩ | ⟨_, h⟩ | ⟨_, _, h⟩ | ⟨_, _, h⟩ | ⟨_, _, _, h⟩ := hread <;> rw [h] <;> constructor

@[simp] theorem exec_reset (s : State) : exec .reset s = .next (s.resetCore.respond (.ok 0)) := rfl

/-- ENCODE by its two outcomes (R100, R103). -/
theorem exec_encode_cases (raw : List Byte) (s : State) :
    (raw.length ≤ s.cfg.N ∧ exec (.encode raw) s =
      .next (((State.pushAll (frame raw) s.resetCore).withCompleted true).respond (.ok 0))) ∨
    (s.cfg.N < raw.length ∧ exec (.encode raw) s = .next (s.resetCore.respond (.fail .overflow))) :=
  (Nat.lt_or_ge s.cfg.N raw.length).symm.imp (fun h => ⟨h, execEncode_fits h⟩) fun h => ⟨h, execEncode_tooLong h⟩

/-- DECODE_MSG is its walk from the reset state, and its end (R129). -/
@[simp] theorem exec_decodeMsg (f : List Byte) (s : State) : exec (.decodeMsg f) s =
    .next ((decodeEnd (decodeWalk f s.resetCore)).1.respond (decodeEnd (decodeWalk f s.resetCore)).2) := rfl

/-- The end of DECODE_MSG by its three outcomes (R129). -/
theorem decodeEnd_cases (p : State × Option Kind) :
    (∃ k, p.2 = some k ∧ decodeEnd p = (p.1, .fail k)) ∨
    (p.2 = none ∧ p.1.completed = true ∧ decodeEnd p = (p.1, .ok 0)) ∨
    (p.2 = none ∧ p.1.completed = false ∧ decodeEnd p = (p.1.resetCore, .fail .truncation)) := by
  obtain ⟨t, _ | k⟩ := p
  · cases h : t.completed with
    | true => exact .inr (.inl ⟨rfl, rfl, if_pos h⟩)
    | false => exact .inr (.inr ⟨rfl, rfl, if_neg (by simp [h])⟩)
  · exact .inl ⟨k, rfl, rfl⟩

@[simp] theorem exec_rxHeader (s : State) :
    exec .rxHeader s = .next ((s.resetCore.withSt .inFrame).respond (.ok 0)) := rfl

/-- RX_NOISE by its two outcomes; the row's own bytes are those of the second (R121). -/
theorem exec_rxNoise_cases (b : Byte) (s : State) :
    (b = HDR ∧ exec (.rxNoise b) s = .next ((s.resetCore.withSt .inFrame).respond (.ok 0))) ∨
    (b ≠ HDR ∧ exec (.rxNoise b) s = .next (s.resetCore.respond (.ok 0))) := by
  by_cases hb : b = HDR
  · exact .inl ⟨hb, hb ▸ rfl⟩
  · exact .inr ⟨hb, congrArg (fun t => answer (t, .ok 0)) (if_neg hb)⟩

@[simp] theorem exec_rxFooter (s : State) :
    exec .rxFooter s = .next (((s.withSt .waitHeader).withCompleted true).respond (.ok 0)) := rfl

@[simp] theorem exec_rxEscape (s : State) : exec .rxEscape s = .next ((s.withSt .afterEscape).respond (.ok 0)) := rfl

@[simp] theorem exec_rxCorrupt (s : State) :
    exec .rxCorrupt s = .next (s.resetCore.respond (.fail .corruption)) := rfl

/-- RX_DATA by its two outcomes (R125). -/
theorem exec_rxData_cases (b : Byte) (s : State) :
    (s.cursor.toNat < s.cfg.N ∧ exec (.rxData b) s = .next ((s.push b).respond (.ok 0))) ∨
    (s.cfg.N ≤ s.cursor.toNat ∧ exec (.rxData b) s = .next (s.resetCore.respond (.fail .overflow))) :=
  (Nat.lt_or_ge s.cursor.toNat s.cfg.N).imp
    (fun h => ⟨h, congrArg answer (stepInFrameData_room b h)⟩) fun h => ⟨h, congrArg answer (stepInFrameData_full b h)⟩

/-- RX_ESCAPED by its two outcomes (R126). -/
theorem exec_rxEscaped_cases (b : Byte) (s : State) :
    (s.cursor.toNat < s.cfg.N ∧
      exec (.rxEscaped b) s = .next (((s.withSt .inFrame).push (b ^^^ XORM)).respond (.ok 0))) ∨
    (s.cfg.N ≤ s.cursor.toNat ∧
      exec (.rxEscaped b) s = .next (s.resetCore.respond (escOverflowResponse s.cfg))) :=
  (Nat.lt_or_ge s.cursor.toNat s.cfg.N).imp
    (fun h => ⟨h, congrArg answer (stepAfterEscape_room b h)⟩) fun h => ⟨h, congrArg answer (stepAfterEscape_full b h)⟩

theorem appendRaw_eq_next {v : Byte} {s t : State} (h : appendRaw v s = .next t) : t = s.push v := by
  obtain ⟨-, h'⟩ | ⟨-, h'⟩ := appendRaw_cases v s
  · exact (Host.Outcome.next.inj (h'.symm.trans h)).symm
  · cases h'.symm.trans h

/-- What TX_SPECIAL appends where it answers (R62). -/
theorem exec_txSpecial_eq_next {b : Byte} {s t : State} (h : exec (.txSpecial b) s = .next t) :
    t = (s.push ESC).push (b ^^^ XORM) := by
  obtain ⟨m, hm, ht⟩ := andThen_eq_next h
  rw [appendRaw_eq_next ht, appendRaw_eq_next hm]

/-- What TX_ORDINARY appends where it answers (R62). -/
theorem exec_txOrdinary_eq_next {b : Byte} {s t : State} (h : exec (.txOrdinary b) s = .next t) : t = s.push b :=
  appendRaw_eq_next h

/-! ## The frame -/

theorem decodeEnd_frame (p : State × Option Kind) :
    (decodeEnd p).1.cfg = p.1.cfg ∧ (decodeEnd p).1.inbox = p.1.inbox ∧ (decodeEnd p).1.outbox = p.1.outbox := by
  obtain ⟨_, -, h⟩ | ⟨-, -, h⟩ | ⟨-, -, h⟩ := decodeEnd_cases p <;> rw [h] <;> exact ⟨rfl, rfl, rfl⟩

/-- No instruction changes the parameters or takes from the host's items (R25). -/
theorem exec_frame {i : Instr} {s t : State} (h : exec i s = .next t) : t.cfg = s.cfg ∧ t.inbox = s.inbox := by
  cases i with
  | encode raw =>
    obtain ⟨-, h'⟩ | ⟨-, h'⟩ := exec_encode_cases raw s <;> cases h'.symm.trans h <;> simp
  | decodeMsg f =>
    obtain ⟨hcfg, hinbox, -⟩ := decodeEnd_frame (decodeWalk f s.resetCore)
    obtain ⟨hcfg', hinbox', -⟩ := decodeWalk_frame f s.resetCore
    cases h
    exact ⟨hcfg.trans hcfg', hinbox.trans hinbox'⟩
  | decodeByte b =>
    obtain ⟨hcfg, hinbox, -⟩ := decoderStep_frame b s
    cases h
    exact ⟨hcfg, hinbox⟩
  | readByte k =>
    obtain ⟨r, h'⟩ := exec_of_onlyAnswers (.readByte k) s
    cases h'.symm.trans h
    exact ⟨rfl, rfl⟩
  | rxNoise b =>
    obtain ⟨-, h'⟩ | ⟨-, h'⟩ := exec_rxNoise_cases b s <;> cases h'.symm.trans h <;> exact ⟨rfl, rfl⟩
  | rxData b =>
    obtain ⟨-, h'⟩ | ⟨-, h'⟩ := exec_rxData_cases b s <;> cases h'.symm.trans h <;> exact ⟨rfl, rfl⟩
  | rxEscaped b =>
    obtain ⟨-, h'⟩ | ⟨-, h'⟩ := exec_rxEscaped_cases b s <;> cases h'.symm.trans h <;> exact ⟨rfl, rfl⟩
  | txSpecial b => rw [exec_txSpecial_eq_next h]; exact ⟨rfl, rfl⟩
  | txOrdinary b => rw [exec_txOrdinary_eq_next h]; exact ⟨rfl, rfl⟩
  | _ => cases h; exact ⟨rfl, rfl⟩

/-- Settles O3: the frame of every instruction, and the two outcomes of a step. -/
theorem parametersNeverChange : Obligations.ParametersNeverChange := by
  refine ⟨fun i s t h => (exec_frame h).1, fun s t h => ?_⟩
  obtain ⟨i, rest, -, hexec⟩ | ⟨-, rfl⟩ := step_eq_next h
  · exact (exec_frame hexec).1
  · rfl

/-- Settles O44: each resetting row leaves the buffer, and the instructions that only answer leave the whole state. -/
theorem nonStoringInstructionsKeepBuffer : Obligations.NonStoringInstructionsKeepBuffer := by
  intro i s t h
  refine ⟨fun hi => ⟨?_, exec_frame h⟩, fun hi => ?_⟩
  · obtain rfl | rfl | ⟨b, rfl⟩ | rfl | rfl | rfl := hi
    · cases h; rfl
    · cases h; rfl
    · obtain ⟨-, h'⟩ | ⟨-, h'⟩ := exec_rxNoise_cases b s <;> cases h'.symm.trans h <;> rfl
    · cases h; rfl
    · cases h; rfl
    · cases h; rfl
  · have hi : OnlyAnswers i := by
      obtain rfl | rfl | ⟨_, rfl⟩ | ⟨_, rfl⟩ | ⟨_, _, rfl⟩ | ⟨_, _, rfl⟩ | ⟨_, _, _, rfl⟩ := hi <;> constructor
    obtain ⟨r, h'⟩ := exec_of_onlyAnswers hi s
    cases h'.symm.trans h
    rfl

end Sys2Proof.Machine
end

section
/-! The family of 10_state.md: power-on (R33), the codes of the decoder state (R35), and the invariants of R31, which
power-on meets and every step keeps. -/

namespace Sys2Proof.Machine

/-- Settles O1: every field of the power-on state is written out, and its buffer lists no byte. -/
theorem powerOnIsResetState : Obligations.PowerOnIsResetState :=
  fun _ => ⟨rfl, rfl, rfl, rfl, fun _ => rfl⟩

/-- Settles O4, one code at a time. -/
theorem decoderStateCodes : Obligations.DecoderStateCodes := by
  refine ⟨rfl, rfl, rfl, rfl, fun d => ?_⟩
  cases d <;> rfl

/-! ## What keeps the invariants -/

/-- An empty content in WaitHeader meets the invariants where the buffer is in canonical form. -/
theorem Invariants.of_empty {s : State} (hst : s.st = .waitHeader) (hcursor : s.cursor = 0)
    (hwf : s.buf.wf) (hin : s.buf.within s.cfg.bufSize) : Invariants s where
  decoding h := absurd hst h
  idle _ _ := hcursor
  announced _ := hst
  bounded := by simp [hcursor]
  written k hk := by simp [hcursor] at hk
  canonical := hwf
  inside := hin

/-- Settles O46: power-on is an empty content in WaitHeader, and its buffer lists no byte. -/
theorem invariantsHoldAtPowerOn : Obligations.InvariantsHoldAtPowerOn := by
  have h (c : Config) : Invariants (State.powerOn c) :=
    .of_empty rfl rfl List.Pairwise.nil (fun _ hc => absurd hc List.not_mem_nil)
  exact ⟨h, h Config.standard⟩

namespace Invariants

variable {s : State}

theorem respond (h : Invariants s) (r : Response) : Invariants (s.respond r) := { h with }

theorem withInbox (h : Invariants s) (l : List HostItem) : Invariants (s.withInbox l) := { h with }

theorem resetCore (h : Invariants s) : Invariants s.resetCore :=
  .of_empty rfl rfl h.canonical h.inside

/-- Opening a frame in the reset state (R121). -/
theorem openFrame (h : Invariants s) : Invariants (s.resetCore.withSt .inFrame) where
  decoding _ := ⟨Nat.zero_le _, rfl⟩
  idle h' := nomatch h'
  announced h' := nomatch h'
  bounded := Nat.zero_le _
  written _ hk := absurd hk (Nat.not_lt_zero _)
  canonical := h.canonical
  inside := h.inside

/-- Moving between the two decoder states of an open frame (R123, R126). -/
theorem withSt (h : Invariants s) (hs : s.st ≠ .waitHeader) {d : DecState} (hd : d ≠ .waitHeader) :
    Invariants (s.withSt d) where
  decoding _ := h.decoding hs
  idle h' := absurd h' hd
  announced h' := absurd (h.announced h') hs
  bounded := h.bounded
  written := h.written
  canonical := h.canonical
  inside := h.inside

/-- Closing a frame (R122). -/
theorem closeFrame (h : Invariants s) : Invariants ((s.withSt .waitHeader).withCompleted true) where
  decoding h' := absurd rfl h'
  idle _ h' := nomatch h'
  announced _ := rfl
  bounded := h.bounded
  written := h.written
  canonical := h.canonical
  inside := h.inside

/-- An append inside a frame, below the capacity (R125, R126). -/
theorem push (h : Invariants s) (hs : s.st ≠ .waitHeader) (hc : s.cursor.toNat < s.cfg.N) (v : Byte) :
    Invariants (s.push v) := by
  have hsize := N_lt_bufSize s.cfg
  have hp := push_cursor_toNat (s := s) v (by have := bufSize_le s.cfg; omega)
  exact {
    decoding := fun _ => ⟨by rw [hp]; exact hc, (h.decoding hs).2⟩
    idle := fun h' => absurd h' hs
    announced := h.announced
    bounded := by rw [hp, State.push_cfg]; omega
    written := fun k hk => by
      rw [hp] at hk
      rw [State.push_buf, Memory.lookup_write]
      split
      · rfl
      · exact h.written k (by omega)
    canonical := Memory.wf_write _ v h.canonical
    inside := Memory.within_write v (by rw [State.push_cfg]; omega) h.inside }

/-- A whole frame as ENCODE stores it (R101). -/
theorem encoded (h : Invariants s) {raw : List Byte} (hraw : raw.length ≤ s.cfg.N) :
    Invariants ((State.pushAll (frame raw) s.resetCore).withCompleted true) := by
  have hfit : s.resetCore.cursor.toNat + (frame raw).length ≤ s.resetCore.cfg.bufSize := by
    simpa using length_frame_le hraw
  have h255 := hfit.trans ((bufSize_le _).trans (by decide : 254 ≤ 255))
  have hcursor := pushAll_cursor_toNat h255
  exact {
    decoding := fun h' => absurd (State.pushAll_st _ _) h'
    idle := fun _ h' => nomatch h'
    announced := fun _ => State.pushAll_st _ _
    bounded := by simpa [hcursor] using hfit
    written := fun k hk => lookup_pushAll_isSome h255 (by simp) (hcursor ▸ hk)
    canonical := wf_pushAll h.canonical
    inside := by simpa using within_pushAll hfit h.inside }

end Invariants

/-! ## The invariants over the instructions -/

/-- A transition, over its nine cases (R127). -/
theorem decoderStep_keeps_invariants {s : State} (h : Invariants s) (b : Byte) : Invariants (decoderStep b s).1 := by
  rcases decoderStep_cases b s with ⟨-, -, hr⟩ | ⟨-, -, hr⟩ | ⟨-, -, hr⟩ | ⟨hs, -, hr⟩ | ⟨-, -, hr⟩ |
    ⟨hs, -, hc, hr⟩ | ⟨-, -, -, hr⟩ | ⟨hs, hc, hr⟩ | ⟨-, -, hr⟩ <;> rw [hr]
  · exact h.openFrame
  · exact h.resetCore
  · exact h.closeFrame
  · exact h.withSt (by simp [hs]) (by decide)
  · exact h.resetCore
  · exact h.push (by simp [hs]) hc b
  · exact h.resetCore
  · exact (h.withSt (d := .inFrame) (by simp [hs]) (by decide)).push (by simp) hc (b ^^^ XORM)
  · exact h.resetCore

theorem decodeWalk_keeps_invariants {s : State} (h : Invariants s) (f : List Byte) : Invariants (decodeWalk f s).1 := by
  induction f generalizing s with
  | nil => exact h
  | cons b f ih =>
    have hstep := decoderStep_keeps_invariants h b
    rcases hr : decoderStep b s with ⟨t, d | k⟩ <;> rw [hr] at hstep
    · rw [decodeWalk_cons_ok hr]
      exact ih hstep
    · rw [decodeWalk_cons_fail hr]
      exact hstep

theorem decodeEnd_keeps_invariants {p : State × Option Kind} (h : Invariants p.1) : Invariants (decodeEnd p).1 := by
  obtain ⟨_, -, hp⟩ | ⟨-, -, hp⟩ | ⟨-, -, hp⟩ := decodeEnd_cases p <;> rw [hp]
  · exact h
  · exact h
  · exact h.resetCore

/-- A command or an illegal word keeps the invariants. A byte class taken by itself need not: RX_ESCAPE leaves the
decoder inside a frame with a result still announced. -/
theorem exec_decodeCommand_keeps_invariants {s t : State} (h : Invariants s) {w : Word16} {bs : List Byte}
    (ht : exec (decodeCommand w bs) s = .next t) : Invariants t := by
  obtain hi | hi | hi | ⟨b, hi⟩ | hi := decodeCommand_codec_or_onlyAnswers w bs
  · rw [hi] at ht
    cases ht
    exact h.resetCore.respond _
  · rw [hi] at ht
    obtain ⟨hraw, he⟩ | ⟨-, he⟩ := exec_encode_cases bs s <;> cases he.symm.trans ht
    · exact (h.encoded hraw).respond _
    · exact h.resetCore.respond _
  · rw [hi] at ht
    cases ht
    exact (decodeEnd_keeps_invariants (decodeWalk_keeps_invariants h.resetCore bs)).respond _
  · rw [hi] at ht
    cases ht
    exact (decoderStep_keeps_invariants h b).respond _
  · obtain ⟨r, he⟩ := exec_of_onlyAnswers hi s
    cases he.symm.trans ht
    exact h.respond r

/-- Settles O47: a step runs a decoded command, which keeps the invariants, or waits. -/
theorem stepKeepsInvariants : Obligations.StepKeepsInvariants := by
  intro s t h ht
  obtain ⟨i, rest, hdecode, hexec⟩ | ⟨-, rfl⟩ := step_eq_next ht
  · obtain ⟨w, bs, -, -, rfl⟩ := decode_eq_ok hdecode
    exact exec_decodeCommand_keeps_invariants (h.withInbox rest) hexec
  · exact h

end Sys2Proof.Machine
end

section
/-! The family of 10_state.md: bytes at or above the cursor are unobservable (R32). Two states that differ in such bytes
only are called alike; every operation takes alike states to alike states with equal responses. -/

namespace Sys2Proof.Machine

/-! ## The state's operations -/

namespace SameButStale

variable {s t : State}

theorem resetCore (h : SameButStale s t) : SameButStale s.resetCore t.resetCore where
  registers := ⟨h.registers.cfg, rfl, rfl, rfl⟩
  below _ hk := absurd hk (Nat.not_lt_zero _)
  inbox := h.inbox
  outbox := h.outbox

theorem withSt (h : SameButStale s t) (d : DecState) : SameButStale (s.withSt d) (t.withSt d) :=
  { h with registers := { h.registers with st := rfl } }

theorem withCompleted (h : SameButStale s t) (c : Bool) : SameButStale (s.withCompleted c) (t.withCompleted c) :=
  { h with registers := { h.registers with completed := rfl } }

theorem withInbox (h : SameButStale s t) (l : List HostItem) : SameButStale (s.withInbox l) (t.withInbox l) :=
  { h with registers := { h.registers with }, inbox := rfl }

theorem respond (h : SameButStale s t) (r : Response) : SameButStale (s.respond r) (t.respond r) :=
  { h with registers := { h.registers with }, outbox := congrArg (· ++ [r.toWord]) h.outbox }

/-- An append writes the same byte at the same index, the only one that it makes readable. Where the cursor wraps, nothing
is readable after it. -/
theorem push (h : SameButStale s t) (v : Byte) : SameButStale (s.push v) (t.push v) where
  registers := { h.registers with cursor := congrArg (· + 1) h.registers.cursor }
  below k hk := by
    have hle : (s.push v).cursor.toNat ≤ s.cursor.toNat + 1 := by
      rw [State.push_cursor, BitVec.toNat_add]
      exact Nat.mod_le _ _
    rw [bufRead_push, bufRead_push, ← h.registers.cursor]
    split
    · rfl
    · exact h.below k (by omega)
  inbox := h.inbox
  outbox := h.outbox

theorem pushAll (h : SameButStale s t) (vs : List Byte) : SameButStale (State.pushAll vs s) (State.pushAll vs t) := by
  induction vs generalizing s t with
  | nil => exact h
  | cons v vs ih => exact ih (h.push v)

theorem N_eq (h : SameButStale s t) : s.cfg.N = t.cfg.N := congrArg Config.N h.registers.cfg

theorem cursor_toNat_eq (h : SameButStale s t) : s.cursor.toNat = t.cursor.toNat :=
  congrArg BitVec.toNat h.registers.cursor

theorem readable_iff (h : SameButStale s t) (k : Nat) : s.readable k ↔ t.readable k := by
  rw [State.readable, State.readable, h.registers.cfg, h.registers.cursor]

end SameButStale

/-! ## The decoder -/

/-- Alike states, each with the same value: a response, or the kind of a failing step. -/
def AlikeWith {α : Type} (p q : State × α) : Prop := SameButStale p.1 q.1 ∧ p.2 = q.2

section
variable {s t : State} (h : SameButStale s t)
include h

theorem stepWaitHeader_alike (b : Byte) : AlikeWith (stepWaitHeader b s) (stepWaitHeader b t) := by
  refine ⟨?_, rfl⟩
  unfold stepWaitHeader
  split
  · exact h.resetCore.withSt .inFrame
  · exact h.resetCore

theorem stepInFrameFTR_alike : AlikeWith (stepInFrameFTR s) (stepInFrameFTR t) :=
  ⟨(h.withSt .waitHeader).withCompleted true, rfl⟩

theorem stepInFrameESC_alike : AlikeWith (stepInFrameESC s) (stepInFrameESC t) := ⟨h.withSt .afterEscape, rfl⟩

theorem stepInFrameHDR_alike : AlikeWith (stepInFrameHDR s) (stepInFrameHDR t) := ⟨h.resetCore, rfl⟩

theorem stepInFrameData_alike (b : Byte) : AlikeWith (stepInFrameData b s) (stepInFrameData b t) := by
  have hN := h.N_eq
  have hcursor := h.cursor_toNat_eq
  rcases Nat.lt_or_ge s.cursor.toNat s.cfg.N with hc | hc
  · rw [stepInFrameData_room b hc, stepInFrameData_room b (by omega)]
    exact ⟨h.push b, rfl⟩
  · rw [stepInFrameData_full b hc, stepInFrameData_full b (by omega)]
    exact ⟨h.resetCore, rfl⟩

theorem stepAfterEscape_alike (b : Byte) : AlikeWith (stepAfterEscape b s) (stepAfterEscape b t) := by
  have hN := h.N_eq
  have hcursor := h.cursor_toNat_eq
  rcases Nat.lt_or_ge s.cursor.toNat s.cfg.N with hc | hc
  · rw [stepAfterEscape_room b hc, stepAfterEscape_room b (by omega)]
    exact ⟨(h.withSt .inFrame).push _, rfl⟩
  · rw [stepAfterEscape_full b hc, stepAfterEscape_full b (by omega)]
    exact ⟨h.resetCore, congrArg escOverflowResponse h.registers.cfg⟩

theorem decoderStep_alike (b : Byte) : AlikeWith (decoderStep b s) (decoderStep b t) := by
  unfold decoderStep
  rw [← h.registers.st]
  cases s.st with
  | waitHeader => exact stepWaitHeader_alike h b
  | inFrame =>
    dsimp only
    split
    · exact stepInFrameFTR_alike h
    · split
      · exact stepInFrameESC_alike h
      · split
        · exact stepInFrameHDR_alike h
        · exact stepInFrameData_alike h b
  | afterEscape => exact stepAfterEscape_alike h b

theorem decodeWalk_alike (f : List Byte) : AlikeWith (decodeWalk f s) (decodeWalk f t) := by
  induction f generalizing s t with
  | nil => exact ⟨h, rfl⟩
  | cons b f ih =>
    obtain ⟨hstate, hresponse⟩ := decoderStep_alike h b
    rcases hs : decoderStep b s with ⟨m, d | k⟩ <;> rcases ht : decoderStep b t with ⟨n, d' | k'⟩ <;>
      rw [hs, ht] at hstate hresponse <;> cases hresponse
    · rw [decodeWalk_cons_ok hs, decodeWalk_cons_ok ht]
      exact ih hstate
    · rw [decodeWalk_cons_fail hs, decodeWalk_cons_fail ht]
      exact ⟨hstate, rfl⟩

end

theorem decodeEnd_alike {p q : State × Option Kind} (h : AlikeWith p q) : AlikeWith (decodeEnd p) (decodeEnd q) := by
  obtain ⟨s, o⟩ := p
  obtain ⟨t, o'⟩ := q
  obtain ⟨hstate, rfl⟩ : SameButStale s t ∧ o = o' := h
  cases o with
  | some k => exact ⟨hstate, rfl⟩
  | none =>
    unfold decodeEnd
    dsimp only
    rw [← hstate.registers.completed]
    split
    · exact ⟨hstate, rfl⟩
    · exact ⟨hstate.resetCore, rfl⟩

/-! ## The instructions and the steps -/

/-- Where `r` answers a next state, `q` answers one that is alike. -/
def AnswersAlike (r q : Result) : Prop := ∀ s, r = .next s → ∃ t, q = .next t ∧ SameButStale s t

namespace AnswersAlike

theorem next {s t : State} (h : SameButStale s t) : AnswersAlike (.next s) (.next t) := by
  rintro _ ⟨⟩
  exact ⟨t, rfl, h⟩

theorem answer {p q : State × Response} (h : AlikeWith p q) : AnswersAlike (answer p) (answer q) := by
  obtain ⟨hstate, hresponse⟩ := h
  rw [answer_eq, answer_eq, ← hresponse]
  exact next (hstate.respond p.2)

theorem andThen {r q : Result} {f : State → Result} (h : AnswersAlike r q)
    (hf : ∀ {s t : State}, SameButStale s t → AnswersAlike (f s) (f t)) :
    AnswersAlike (andThen r f) (andThen q f) := by
  intro s' hs'
  obtain ⟨m, hm, hfm⟩ := andThen_eq_next hs'
  obtain ⟨n, hn, halike⟩ := h m hm
  rw [hn]
  exact hf halike s' hfm

end AnswersAlike

section
variable {s t : State} (h : SameButStale s t)
include h

theorem appendRaw_alike (v : Byte) : AnswersAlike (appendRaw v s) (appendRaw v t) := by
  intro s' hs'
  obtain ⟨hroom, -⟩ | ⟨-, hfault⟩ := appendRaw_cases v s
  · rw [h.registers.cfg, h.registers.cursor] at hroom
    rw [appendRaw_eq_next hs']
    exact ⟨_, appendRaw_next v hroom, h.push v⟩
  · cases hfault.symm.trans hs'

theorem execEncode_alike (raw : List Byte) : AnswersAlike (execEncode raw s) (execEncode raw t) := by
  have hN := h.N_eq
  rcases Nat.lt_or_ge s.cfg.N raw.length with hlong | hfits
  · rw [execEncode_tooLong hlong, execEncode_tooLong (by omega)]
    exact .next (h.resetCore.respond _)
  · rw [execEncode_fits hfits, execEncode_fits (by omega)]
    exact .next (((h.resetCore.pushAll (frame raw)).withCompleted true).respond _)

theorem execReadByte_alike (k : Byte) : AnswersAlike (execReadByte k s) (execReadByte k t) := by
  unfold execReadByte
  by_cases hk : s.readable k.toNat
  · rw [if_pos hk, if_pos ((h.readable_iff _).mp hk)]
    exact .answer ⟨h, congrArg Response.ok (h.below _ hk.1)⟩
  · rw [if_neg hk, if_neg (mt (h.readable_iff _).mpr hk)]
    exact .answer ⟨h, rfl⟩

/-- Every instruction, one arm each. -/
theorem exec_alike (i : Instr) : AnswersAlike (exec i s) (exec i t) := by
  cases i with
  | reset => exact .answer ⟨h.resetCore, rfl⟩
  | encode raw => exact execEncode_alike h raw
  | decodeMsg f => exact .answer (decodeEnd_alike (decodeWalk_alike h.resetCore f))
  | decodeByte b => exact .answer (decoderStep_alike h b)
  | isCompleted => exact .answer ⟨h, congrArg (fun c => Response.ok (flagByte c)) h.registers.completed⟩
  | size => exact .answer ⟨h, congrArg Response.ok h.registers.cursor⟩
  | readByte k => exact execReadByte_alike h k
  | rxHeader => exact .answer (stepWaitHeader_alike h HDR)
  | rxNoise b => exact .answer (stepWaitHeader_alike h b)
  | rxFooter => exact .answer (stepInFrameFTR_alike h)
  | rxEscape => exact .answer (stepInFrameESC_alike h)
  | rxCorrupt => exact .answer (stepInFrameHDR_alike h)
  | rxData b => exact .answer (stepInFrameData_alike h b)
  | rxEscaped b => exact .answer (stepAfterEscape_alike h b)
  | txSpecial b => exact (appendRaw_alike h ESC).andThen fun h' => appendRaw_alike h' (b ^^^ XORM)
  | txOrdinary b => exact appendRaw_alike h b
  | _ => exact .answer ⟨h, rfl⟩

theorem step_alike : AnswersAlike (step s) (step t) := by
  intro s' hs'
  obtain ⟨i, rest, hdecode, hexec⟩ | ⟨hwait, rfl⟩ := step_eq_next hs'
  · rw [step_of_decode (h.inbox ▸ hdecode)]
    exact exec_alike (h.withInbox rest) i s' hexec
  · obtain hempty | hmissing := hwait
    · exact ⟨t, step_of_error (h.inbox ▸ hempty), h⟩
    · exact ⟨t, step_of_error (h.inbox ▸ hmissing), h⟩

theorem runSteps_alike (n : Nat) : AnswersAlike (runSteps n s) (runSteps n t) := by
  induction n generalizing s t with
  | zero => exact .next h
  | succ n ih => exact (step_alike h).andThen ih

end

/-- Settles O48: steps take alike states to alike states, by induction on their number. -/
theorem staleBytesAreUnobservable : Obligations.StaleBytesAreUnobservable := by
  refine ⟨fun s t s' h hs => step_alike h s' hs, fun n s t s' h hs => ?_⟩
  obtain ⟨t', ht, h'⟩ := runSteps_alike h n s' hs
  exact ⟨t', ht, h'.outbox⟩

end Sys2Proof.Machine
end

section
/-! The family of 10_state.md: what writes the completion flag (R24). DECODE_MSG's walk is told as the host sees it, byte by
byte (R75). -/

namespace Sys2Proof.Machine

/-! ## A host that feeds bytes, and the walk of DECODE_MSG -/

theorem respOk_ok (d : Byte) : respOk (Response.ok d).toWord = true := by
  rw [respOk, Response.toWord, BitVec.extractLsb'_append_eq_of_le (by decide)]
  rfl

theorem respOk_fail (k : Kind) : respOk (Response.fail k).toWord = false := by
  cases k <;> rfl

@[simp] theorem lastResponse_respond (s : State) (r : Response) : (s.respond r).lastResponse = some r.toWord := by
  simp [State.lastResponse]

theorem hostFeed_cons_ok {b : Byte} {bs : List Byte} {s t : State} {d : Byte} (h : decoderStep b s = (t, .ok d)) :
    hostFeed (b :: bs) s = hostFeed bs (t.respond (.ok d)) := by
  simp [hostFeed, h, respOk_ok]

theorem hostFeed_cons_fail {b : Byte} {bs : List Byte} {s t : State} {k : Kind} (h : decoderStep b s = (t, .fail k)) :
    hostFeed (b :: bs) s = (t.respond (.fail k), some (Response.fail k).toWord) := by
  simp [hostFeed, h, respOk_fail]

/-- A transition neither looks at the responses already returned nor changes them (R127). -/
theorem decoderStep_of_outbox (b : Byte) (s : State) (o : List Word16) :
    decoderStep b { s with outbox := o } = ({ (decoderStep b s).1 with outbox := o }, (decoderStep b s).2) := by
  rcases decoderStep_cases b s with ⟨hs, rfl, h⟩ | ⟨hs, hb, h⟩ | ⟨hs, rfl, h⟩ | ⟨hs, rfl, h⟩ | ⟨hs, rfl, h⟩ |
    ⟨hs, hb, hc, h⟩ | ⟨hs, hb, hc, h⟩ | ⟨hs, hc, h⟩ | ⟨hs, hc, h⟩ <;> rw [h]
  · exact decoderStep_header (s := { s with outbox := o }) hs
  · exact decoderStep_noise (s := { s with outbox := o }) hs hb
  · exact decoderStep_footer (s := { s with outbox := o }) hs
  · exact decoderStep_escape (s := { s with outbox := o }) hs
  · exact decoderStep_corrupt (s := { s with outbox := o }) hs
  · exact decoderStep_data (s := { s with outbox := o }) hs hb hc
  · exact decoderStep_dataFull (s := { s with outbox := o }) hs hb hc
  · exact decoderStep_escaped (s := { s with outbox := o }) hs hc
  · exact decoderStep_escapedFull (s := { s with outbox := o }) hs hc

/-- Feeding an input byte by byte goes where the walk goes and fails where the walk fails; only the responses returned
differ (R75). -/
theorem hostFeed_eq_decodeWalk (f : List Byte) (s : State) (o : List Word16) :
    ∃ o', hostFeed f { s with outbox := o } =
      ({ (decodeWalk f s).1 with outbox := o' }, (decodeWalk f s).2.map fun k => (Response.fail k).toWord) := by
  induction f generalizing s o with
  | nil => exact ⟨o, rfl⟩
  | cons b f ih =>
    have hstep := decoderStep_of_outbox b s o
    rcases hr : decoderStep b s with ⟨t, d | k⟩ <;> rw [hr] at hstep
    · rw [hostFeed_cons_ok hstep, decodeWalk_cons_ok hr]
      exact ih t _
    · rw [hostFeed_cons_fail hstep, decodeWalk_cons_fail hr]
      exact ⟨_, rfl⟩

/-! ## A transition and the walk -/

/-- What a transition does to the flag: keeps it, sets it on a footer in InFrame, or clears it with a reset, which HDR
follows by opening a frame. -/
theorem decoderStep_completed_cases (b : Byte) (s : State) :
    (s.st ≠ .waitHeader ∧ (decoderStep b s).1.completed = s.completed) ∨
    (s.st = .inFrame ∧ b = FTR ∧ decoderStep b s = ((s.withSt .waitHeader).withCompleted true, .ok 0)) ∨
    (decoderStep b s).1 = s.resetCore ∨
    (b = HDR ∧ decoderStep b s = (s.resetCore.withSt .inFrame, .ok 0)) := by
  rcases decoderStep_cases b s with ⟨hs, hb, h⟩ | ⟨hs, hb, h⟩ | ⟨hs, hb, h⟩ | ⟨hs, hb, h⟩ | ⟨hs, hb, h⟩ |
    ⟨hs, hb, hc, h⟩ | ⟨hs, hb, hc, h⟩ | ⟨hs, hc, h⟩ | ⟨hs, hc, h⟩
  · exact .inr (.inr (.inr ⟨hb, h⟩))
  · exact .inr (.inr (.inl (by rw [h])))
  · exact .inr (.inl ⟨hs, hb, h⟩)
  · exact .inl (by simp [h, hs])
  · exact .inr (.inr (.inl (by rw [h])))
  · exact .inl (by simp [h, hs])
  · exact .inr (.inr (.inl (by rw [h])))
  · exact .inl (by simp [h, hs])
  · exact .inr (.inr (.inl (by rw [h])))

/-- The flag is set after a transition only by a footer in InFrame, where it was set in WaitHeader only (INV3 of R31). -/
theorem decoderStep_announces {b : Byte} {s : State} (hs : s.completed = true → s.st = .waitHeader)
    (h : (decoderStep b s).1.completed = true) : s.st = .inFrame ∧ b = FTR := by
  obtain ⟨hst, hkept⟩ | ⟨hst, hb, -⟩ | hreset | ⟨-, hopen⟩ := decoderStep_completed_cases b s
  · exact absurd (hs (hkept ▸ h)) hst
  · exact ⟨hst, hb⟩
  · simp [hreset] at h
  · simp [hopen] at h

/-- A failing transition leaves the reset state (R177). -/
theorem decoderStep_fail_eq {b : Byte} {s t : State} {k : Kind} (h : decoderStep b s = (t, .fail k)) :
    t = s.resetCore := by
  rcases decoderStep_cases b s with ⟨-, -, hr⟩ | ⟨-, -, hr⟩ | ⟨-, -, hr⟩ | ⟨-, -, hr⟩ | ⟨-, -, hr⟩ | ⟨-, -, -, hr⟩ |
    ⟨-, -, -, hr⟩ | ⟨-, -, hr⟩ | ⟨-, -, hr⟩ <;> obtain ⟨hstate, hresponse⟩ := Prod.mk.inj (hr.symm.trans h)
  · cases hresponse
  · cases hresponse
  · cases hresponse
  · cases hresponse
  · exact hstate.symm
  · cases hresponse
  · exact hstate.symm
  · cases hresponse
  · exact hstate.symm

theorem decodeWalk_fail_atReset {f : List Byte} {s t : State} {k : Kind} (h : decodeWalk f s = (t, some k)) :
    AtReset t := by
  induction f generalizing s with
  | nil => cases h
  | cons b f ih =>
    rcases hr : decoderStep b s with ⟨m, d | k'⟩
    · exact ih (decodeWalk_cons_ok hr ▸ h)
    · obtain ⟨rfl, -⟩ := Prod.mk.inj ((decodeWalk_cons_fail hr).symm.trans h)
      rw [decoderStep_fail_eq hr]
      exact ⟨rfl, rfl, rfl⟩

/-- The walk keeps INV3 of R31. -/
theorem decodeWalk_announced (f : List Byte) {s : State} (hs : s.completed = true → s.st = .waitHeader) :
    (decodeWalk f s).1.completed = true → (decodeWalk f s).1.st = .waitHeader := by
  induction f generalizing s with
  | nil => exact hs
  | cons b f ih =>
    have hstep : (decoderStep b s).1.completed = true → (decoderStep b s).1.st = .waitHeader := fun h => by
      obtain ⟨hst, rfl⟩ := decoderStep_announces hs h
      rw [decoderStep_footer hst]
      rfl
    rcases hr : decoderStep b s with ⟨t, d | k⟩ <;> rw [hr] at hstep
    · rw [decodeWalk_cons_ok hr]
      exact ih hstep
    · rw [decodeWalk_cons_fail hr]
      exact hstep

/-- A walk that ends with the flag set took a footer in InFrame last (R130). -/
theorem decodeWalk_completed {f : List Byte} {s t : State} (hs : s.completed = false)
    (h : decodeWalk f s = (t, none)) (ht : t.completed = true) :
    ∃ g u, f = g ++ [FTR] ∧ decodeWalk g s = (u, none) ∧ u.st = .inFrame := by
  obtain rfl | ⟨g, b, rfl⟩ := f.eq_nil_or_concat'
  · cases h
    cases hs.symm.trans ht
  · have hannounced := decodeWalk_announced g (s := s) (by simp [hs])
    rcases hg : decodeWalk g s with ⟨u, _ | k⟩
    · have hstep : (decoderStep b u).1.completed = true := by
        rw [decodeWalk_append hg] at h
        rcases hr : decoderStep b u with ⟨m, d | k⟩
        · rw [decodeWalk_cons_ok hr] at h
          cases h
          exact ht
        · cases (decodeWalk_cons_fail hr).symm.trans h
      rw [hg] at hannounced
      obtain ⟨hst, rfl⟩ := decoderStep_announces hannounced hstep
      exact ⟨g, u, rfl, hg, hst⟩
    · cases (decodeWalk_append_fail hg).symm.trans h

/-! ## The flag over the instructions -/

/-- The instructions that announce a frame (R24). -/
def AnnouncesFrame (i : Instr) (s : State) : Prop :=
  (∃ raw, i = .encode raw ∧ raw.length ≤ s.cfg.N) ∨ (s.st = .inFrame ∧ i = .decodeByte FTR) ∨ i = .rxFooter ∨
  ∃ g u, i = .decodeMsg (g ++ [FTR]) ∧ hostFeed g s.resetCore = (u, none) ∧ u.st = .inFrame

/-- The decoder state after an instruction that clears the flag: WaitHeader, or InFrame where the byte is HDR. -/
def ClearedTo (i : Instr) (st : DecState) : Prop :=
  st = .waitHeader ∨ st = .inFrame ∧ (i = .decodeByte HDR ∨ i = .rxHeader ∨ i = .rxNoise HDR)

/-- What an instruction does to the flag. -/
inductive FlagOutcome (i : Instr) (s t : State) : Prop where
  | kept (h : t.completed = s.completed)
  | announced (h : t.completed = true) (hi : AnnouncesFrame i s)
  | cleared (h : t.completed = false) (hcursor : t.cursor = 0) (hbuf : t.buf = s.buf ∨ ∃ f, i = .decodeMsg f)
      (hst : ClearedTo i t.st)

theorem FlagOutcome.reset (i : Instr) (s : State) (r : Response) : FlagOutcome i s (s.resetCore.respond r) :=
  .cleared rfl rfl (.inl rfl) (.inl rfl)

theorem FlagOutcome.openFrame {i : Instr} (hi : i = .decodeByte HDR ∨ i = .rxHeader ∨ i = .rxNoise HDR) (s : State)
    (r : Response) : FlagOutcome i s ((s.resetCore.withSt .inFrame).respond r) :=
  .cleared rfl rfl (.inl rfl) (.inr ⟨rfl, hi⟩)

theorem exec_decodeMsg_flagOutcome (f : List Byte) (s : State) (r : Response) :
    FlagOutcome (.decodeMsg f) s ((decodeEnd (decodeWalk f s.resetCore)).1.respond r) := by
  rcases hw : decodeWalk f s.resetCore with ⟨u, o⟩
  obtain ⟨k, hk, hend⟩ | ⟨hnone, hc, hend⟩ | ⟨-, -, hend⟩ := decodeEnd_cases (u, o) <;> rw [hend]
  · cases hk
    obtain ⟨hst, hcursor, hcompleted⟩ := decodeWalk_fail_atReset hw
    exact .cleared hcompleted hcursor (.inr ⟨f, rfl⟩) (.inl hst)
  · cases hnone
    obtain ⟨g, v, rfl, hg, hv⟩ := decodeWalk_completed rfl hw hc
    obtain ⟨o', ho'⟩ := hostFeed_eq_decodeWalk g s.resetCore s.outbox
    rw [hg] at ho'
    exact .announced hc (.inr (.inr (.inr ⟨g, _, rfl, ho', hv⟩)))
  · exact .cleared rfl rfl (.inr ⟨f, rfl⟩) (.inl rfl)

theorem exec_decodeByte_flagOutcome (b : Byte) (s : State) (r : Response) :
    FlagOutcome (.decodeByte b) s ((decoderStep b s).1.respond r) := by
  obtain ⟨-, hkept⟩ | ⟨hst, rfl, h⟩ | h | ⟨rfl, h⟩ := decoderStep_completed_cases b s
  · exact .kept hkept
  · rw [h]
    exact .announced rfl (.inr (.inl ⟨hst, rfl⟩))
  · rw [h]
    exact .reset _ s r
  · rw [h]
    exact .openFrame (.inl rfl) s r

/-- Every instruction, one arm each. -/
theorem exec_flagOutcome {i : Instr} {s t : State} (h : exec i s = .next t) : FlagOutcome i s t := by
  cases i with
  | reset => cases h; exact .reset _ s _
  | encode raw =>
    obtain ⟨hraw, h'⟩ | ⟨-, h'⟩ := exec_encode_cases raw s <;> cases h'.symm.trans h
    · exact .announced rfl (.inl ⟨raw, rfl, hraw⟩)
    · exact .reset _ s _
  | decodeMsg f => cases h; exact exec_decodeMsg_flagOutcome f s _
  | decodeByte b => cases h; exact exec_decodeByte_flagOutcome b s _
  | readByte k =>
    obtain ⟨r, h'⟩ := exec_of_onlyAnswers (.readByte k) s
    cases h'.symm.trans h
    exact .kept rfl
  | rxHeader => cases h; exact .openFrame (.inr (.inl rfl)) s _
  | rxNoise b =>
    obtain ⟨rfl, h'⟩ | ⟨-, h'⟩ := exec_rxNoise_cases b s <;> cases h'.symm.trans h
    · exact .openFrame (.inr (.inr rfl)) s _
    · exact .reset _ s _
  | rxFooter => cases h; exact .announced rfl (.inr (.inr (.inl rfl)))
  | rxCorrupt => cases h; exact .reset _ s _
  | rxData b =>
    obtain ⟨-, h'⟩ | ⟨-, h'⟩ := exec_rxData_cases b s <;> cases h'.symm.trans h
    · exact .kept rfl
    · exact .reset _ s _
  | rxEscaped b =>
    obtain ⟨-, h'⟩ | ⟨-, h'⟩ := exec_rxEscaped_cases b s <;> cases h'.symm.trans h
    · exact .kept rfl
    · exact .reset _ s _
  | txSpecial b => rw [exec_txSpecial_eq_next h]; exact .kept rfl
  | txOrdinary b => rw [exec_txOrdinary_eq_next h]; exact .kept rfl
  | _ => cases h; exact .kept rfl

/-- A state with the parameters and the host's items of `s`, an empty content and no frame announced, is what ResetCore
leaves but for the decoder state, the buffer and the responses (R30). -/
theorem eq_resetCore_of_cleared {s t : State} (hcfg : t.cfg = s.cfg) (hinbox : t.inbox = s.inbox)
    (hcursor : t.cursor = 0) (hcompleted : t.completed = false) :
    t = { s.resetCore with st := t.st, buf := t.buf, outbox := t.outbox } := by
  cases t
  cases hcfg
  cases hinbox
  cases hcursor
  cases hcompleted
  rfl

/-- Settles O42: each outcome of the flag answers one of the two clauses, and contradicts the other. -/
theorem completedFlagWriters : Obligations.CompletedFlagWriters := by
  intro i s t h
  obtain ⟨hcfg, hinbox⟩ := exec_frame h
  cases exec_flagOutcome h with
  | kept hkept => exact ⟨fun hs ht => by simp [hkept, hs] at ht, fun hs ht => by simp [hkept, hs] at ht⟩
  | announced ht hi => exact ⟨fun _ _ => hi, fun _ ht' => by simp [ht] at ht'⟩
  | cleared ht hcursor hbuf hst =>
    exact ⟨fun _ ht' => by simp [ht] at ht', fun _ _ => ⟨eq_resetCore_of_cleared hcfg hinbox hcursor ht, hbuf, hst⟩⟩

end Sys2Proof.Machine
end

section
/-! The family of 20_memory.md: where the appends write (R42, R43, R55), and commands done twice (R51). -/

namespace Sys2Proof.Machine

/-! ## Appends without room -/

/-- Settles O21: the first append faults, or it takes the last byte of the buffer and the second append faults. -/
theorem txRowsFaultOutsideBuffer : Obligations.TxRowsFaultOutsideBuffer := by
  refine fun s b => ⟨fun h => ?_, fun h => appendRaw_fault b (by omega)⟩
  change andThen (appendRaw ESC s) (appendRaw (b ^^^ XORM)) = _
  obtain ⟨hroom, hfirst⟩ | ⟨-, hfirst⟩ := appendRaw_cases ESC s <;> rw [hfirst]
  · have hsize := bufSize_le s.cfg
    have hcursor := push_cursor_toNat (s := s) ESC (by omega)
    exact appendRaw_fault _ (by rw [hcursor, State.push_cfg]; omega)
  · rfl

/-! ## Decoding writes below the capacity -/

/-- An append with room under the capacity leaves every byte at or above it. -/
theorem bufRead_push_of_capacity_le {s : State} {k : Nat} (v : Byte) (hroom : s.cursor.toNat < s.cfg.N)
    (hk : s.cfg.N ≤ k) : (s.push v).bufRead k = s.bufRead k := by
  rw [bufRead_push, if_neg (by omega)]

theorem decoderStep_bufRead_of_capacity_le (b : Byte) {s : State} {k : Nat} (hk : s.cfg.N ≤ k) :
    (decoderStep b s).1.bufRead k = s.bufRead k := by
  rcases decoderStep_cases b s with ⟨-, -, h⟩ | ⟨-, -, h⟩ | ⟨-, -, h⟩ | ⟨-, -, h⟩ | ⟨-, -, h⟩ |
    ⟨-, -, hroom, h⟩ | ⟨-, -, -, h⟩ | ⟨-, hroom, h⟩ | ⟨-, -, h⟩ <;> rw [h]
  · rfl
  · rfl
  · rfl
  · rfl
  · rfl
  · exact bufRead_push_of_capacity_le b hroom hk
  · rfl
  · exact bufRead_push_of_capacity_le (s := s.withSt .inFrame) (b ^^^ XORM) hroom hk
  · rfl

theorem decodeWalk_bufRead_of_capacity_le (f : List Byte) {s : State} {k : Nat} (hk : s.cfg.N ≤ k) :
    (decodeWalk f s).1.bufRead k = s.bufRead k := by
  induction f generalizing s with
  | nil => rfl
  | cons b f ih =>
    have hread := decoderStep_bufRead_of_capacity_le b hk
    obtain ⟨hcfg, -, -⟩ := decoderStep_frame b s
    rcases hr : decoderStep b s with ⟨t, d | e⟩ <;> rw [hr] at hread hcfg
    · rw [decodeWalk_cons_ok hr]
      exact (ih (hcfg.symm ▸ hk)).trans hread
    · rw [decodeWalk_cons_fail hr]
      exact hread

@[simp] theorem bufRead_decodeEnd (p : State × Option Kind) (k : Nat) :
    (decodeEnd p).1.bufRead k = p.1.bufRead k := by
  obtain ⟨_, -, h⟩ | ⟨-, -, h⟩ | ⟨-, -, h⟩ := decodeEnd_cases p <;> rw [h]
  rfl

/-- Settles O45: a transition stores only with room under the capacity, and DECODE_MSG's end stores nothing. -/
theorem decodingWritesBelowCapacity : Obligations.DecodingWritesBelowCapacity := by
  intro i s t hi h
  obtain ⟨hcfg, hinbox⟩ := exec_frame h
  refine ⟨hcfg, hinbox, fun k hk => ?_⟩
  obtain ⟨b, rfl⟩ | ⟨f, rfl⟩ | ⟨b, rfl⟩ | ⟨b, rfl⟩ := hi
  · cases h
    exact decoderStep_bufRead_of_capacity_le b hk
  · cases h
    exact (bufRead_decodeEnd _ k).trans (decodeWalk_bufRead_of_capacity_le f (s := s.resetCore) hk)
  · obtain ⟨hroom, h'⟩ | ⟨-, h'⟩ := exec_rxData_cases b s <;> cases h'.symm.trans h
    · exact bufRead_push_of_capacity_le b hroom hk
    · rfl
  · obtain ⟨hroom, h'⟩ | ⟨-, h'⟩ := exec_rxEscaped_cases b s <;> cases h'.symm.trans h
    · exact bufRead_push_of_capacity_le (s := s.withSt .inFrame) (b ^^^ XORM) hroom hk
    · rfl

/-! ## Commands done twice -/

/-- The commands that begin with ResetCore (R30). -/
inductive BeginsWithReset : Instr → Prop where
  | reset : BeginsWithReset .reset
  | encode (raw : List Byte) : BeginsWithReset (.encode raw)
  | decodeMsg (f : List Byte) : BeginsWithReset (.decodeMsg f)

theorem exec_resetCore {i : Instr} (h : BeginsWithReset i) (s : State) : exec i s.resetCore = exec i s := by
  cases h <;> rfl

theorem pushAll_of_outbox (vs : List Byte) (s : State) (o : List Word16) :
    State.pushAll vs { s with outbox := o } = { State.pushAll vs s with outbox := o } := by
  induction vs generalizing s with
  | nil => rfl
  | cons v vs ih => exact ih (s.push v)

theorem decodeWalk_of_outbox (f : List Byte) (s : State) (o : List Word16) :
    decodeWalk f { s with outbox := o } = ({ (decodeWalk f s).1 with outbox := o }, (decodeWalk f s).2) := by
  induction f generalizing s with
  | nil => rfl
  | cons b f ih =>
    have hstep := decoderStep_of_outbox b s o
    rcases hr : decoderStep b s with ⟨t, d | k⟩ <;> rw [hr] at hstep
    · rw [decodeWalk_cons_ok hstep, decodeWalk_cons_ok hr]
      exact ih t
    · rw [decodeWalk_cons_fail hstep, decodeWalk_cons_fail hr]

theorem decodeEnd_of_outbox (p : State × Option Kind) (o : List Word16) :
    decodeEnd ({ p.1 with outbox := o }, p.2) = ({ (decodeEnd p).1 with outbox := o }, (decodeEnd p).2) := by
  obtain ⟨t, _ | k⟩ := p
  · unfold decodeEnd
    dsimp only
    split <;> rfl
  · rfl

/-- These instructions do not look at the responses already returned: whatever they are, one same response is put after
them, and the rest of the next state is the same (R28). -/
theorem exec_of_outbox {i : Instr} (hi : OnlyAnswers i ∨ BeginsWithReset i) (s : State) :
    ∃ (m : State) (r : Response), ∀ o,
      exec i { s with outbox := o } = .next (State.respond { m with outbox := o } r) := by
  obtain hi | hi := hi
  · cases hi with
    | readByte k =>
      by_cases hk : s.readable k.toNat
      · exact ⟨s, .ok (s.bufRead k.toNat), fun o => if_pos hk⟩
      · exact ⟨s, .fail .range, fun o => if_neg hk⟩
    | isCompleted => exact ⟨s, .ok (flagByte s.completed), fun o => rfl⟩
    | size => exact ⟨s, .ok s.cursor, fun o => rfl⟩
    | _ => exact ⟨s, .fail .illegal, fun o => rfl⟩
  · cases hi with
    | reset => exact ⟨s.resetCore, _, fun o => rfl⟩
    | encode raw =>
      rcases Nat.lt_or_ge s.cfg.N raw.length with hlong | hfits
      · exact ⟨s.resetCore, _, fun o => execEncode_tooLong (s := { s with outbox := o }) hlong⟩
      · refine ⟨(State.pushAll (frame raw) s.resetCore).withCompleted true, .ok 0, fun o => ?_⟩
        have hpush := pushAll_of_outbox (frame raw) s.resetCore o
        exact (execEncode_fits (s := { s with outbox := o }) hfits).trans
          (congrArg (fun m => answer (State.withCompleted m true, .ok 0)) hpush)
    | decodeMsg f =>
      refine ⟨(decodeEnd (decodeWalk f s.resetCore)).1, (decodeEnd (decodeWalk f s.resetCore)).2, fun o => ?_⟩
      have hend := decodeEnd_of_outbox (decodeWalk f s.resetCore) o
      rw [← decodeWalk_of_outbox] at hend
      exact congrArg answer hend

theorem SameButStale.refl (s : State) : SameButStale s s := ⟨⟨rfl, rfl, rfl, rfl⟩, fun _ _ => rfl, rfl, rfl⟩

theorem SameButStale.content_eq {s t : State} (h : SameButStale s t) : s.content = t.content := by
  rw [State.content, State.content, ← h.registers.cursor]
  exact List.map_congr_left fun k hk => h.below k (List.mem_range.mp hk)

/-- From where it has left the machine, but for the response it has returned, the instruction answers as it did: it has
changed nothing, or it begins with a reset. -/
theorem exec_again_alike {i : Instr} (hi : OnlyAnswers i ∨ BeginsWithReset i) {s t : State} (h : exec i s = .next t) :
    AnswersAlike (exec i s) (exec i { t with outbox := s.outbox }) := by
  obtain hi | hi := hi
  · obtain ⟨r, h'⟩ := exec_of_onlyAnswers hi s
    cases h'.symm.trans h
    exact exec_alike (.refl s) i
  · obtain ⟨hcfg, hinbox⟩ := exec_frame h
    have hreset : SameButStale s.resetCore (State.resetCore { t with outbox := s.outbox }) :=
      ⟨⟨hcfg.symm, rfl, rfl, rfl⟩, fun k hk => absurd hk k.not_lt_zero, hinbox.symm, rfl⟩
    rw [← exec_resetCore hi s, ← exec_resetCore hi { t with outbox := s.outbox }]
    exact exec_alike hreset i

/-- Done twice, an instruction that only answers or begins with a reset leaves the same registers and content, and
returns the same response, as done once (R51). -/
theorem exec_twice {i : Instr} (hi : OnlyAnswers i ∨ BeginsWithReset i) {s t u : State} (ht : exec i s = .next t)
    (hu : exec i t = .next u) :
    SameRegisters t u ∧ t.content = u.content ∧ ∃ w, Answered s t w ∧ Answered t u w := by
  obtain ⟨m, r, hm⟩ := exec_of_outbox hi t
  obtain ⟨v, hv, halike⟩ := exec_again_alike hi ht t ht
  cases (hm t.outbox).symm.trans hu
  cases (hm s.outbox).symm.trans hv
  obtain ⟨hcfg, hinbox⟩ := exec_frame ht
  obtain ⟨hcfg', hinbox'⟩ := exec_frame hu
  exact ⟨⟨halike.registers.cfg, halike.registers.cursor, halike.registers.st, halike.registers.completed⟩,
    halike.content_eq, r.toWord, ⟨hcfg, hinbox, halike.outbox⟩, ⟨hcfg', hinbox', rfl⟩⟩

/-- Settles O43: the read commands only answer, and the other commands begin with a reset. -/
theorem repeatedCommandsAgree : Obligations.RepeatedCommandsAgree := by
  refine ⟨fun i s t hi h => ?_, fun i s t u hi ht hu => exec_twice ?_ ht hu⟩
  · have hread : OnlyAnswers i := by obtain rfl | rfl | ⟨_, rfl⟩ := hi <;> constructor
    obtain ⟨r, h'⟩ := exec_of_onlyAnswers hread s
    cases h'.symm.trans h
    rfl
  · obtain rfl | rfl | ⟨k, rfl⟩ | rfl | ⟨raw, rfl⟩ | ⟨f, rfl⟩ := hi
    · exact .inl .isCompleted
    · exact .inl .size
    · exact .inl (.readByte k)
    · exact .inr .reset
    · exact .inr (.encode raw)
    · exact .inr (.decodeMsg f)

end Sys2Proof.Machine
end

section
/-! The family of 30_encoding.md: command words, byte classes and their decoding, both ways (R62, R65, R68 to R72). -/

namespace Sys2Proof

/-! ## A command word by its OP -/

/-- The command whose OP is `op.code`, in a word whose ARG is 0 (R69). -/
def NoArgOp.command : NoArgOp → Instr
  | .reset => .reset
  | .isCompleted => .isCompleted
  | .size => .size

/-- The command whose OP is `op.code`, in a word whose ARG is the byte (R69). -/
def ByteArgOp.command : ByteArgOp → Byte → Instr
  | .decodeByte => .decodeByte
  | .readByte => .readByte

/-- OP chooses one of the arms of R69 and R72. -/
theorem opOf_cases (w : Word16) :
    opOf w = 0 ∨ (∃ op : NoArgOp, opOf w = op.code) ∨ opOf w = 2 ∨ opOf w = 3 ∨ (∃ op : ByteArgOp, opOf w = op.code) ∨
    8 ≤ (opOf w).toNat := by
  have hcodes : ∀ c : BitVec 4, c = 0 ∨ c = 1 ∨ c = 2 ∨ c = 3 ∨ c = 4 ∨ c = 5 ∨ c = 6 ∨ c = 7 ∨ 8 ≤ c.toNat := by decide
  obtain h | h | h | h | h | h | h | h | h := hcodes (opOf w)
  · exact .inl h
  · exact .inr (.inl ⟨.reset, h⟩)
  · exact .inr (.inr (.inl h))
  · exact .inr (.inr (.inr (.inl h)))
  · exact .inr (.inr (.inr (.inr (.inl ⟨.decodeByte, h⟩))))
  · exact .inr (.inl ⟨.isCompleted, h⟩)
  · exact .inr (.inl ⟨.size, h⟩)
  · exact .inr (.inr (.inr (.inr (.inl ⟨.readByte, h⟩))))
  · exact .inr (.inr (.inr (.inr (.inr h))))

section
variable {w : Word16} (bs : List Byte)

theorem decodeCommand_op0 (h : opOf w = 0) : decodeCommand w bs = .reservedOp0 (argOf w) := by
  simp [decodeCommand, h]

theorem decodeCommand_noArg {op : NoArgOp} (h : opOf w = op.code) :
    decodeCommand w bs = decodeNoArg op op.command w := by
  cases op <;> simp [decodeCommand, h, NoArgOp.code, NoArgOp.command]

theorem decodeCommand_op2 (h : opOf w = 2) : decodeCommand w bs = .encode bs := by
  simp [decodeCommand, h]

theorem decodeCommand_op3 (h : opOf w = 3) : decodeCommand w bs = .decodeMsg bs := by
  simp [decodeCommand, h]

theorem decodeCommand_byteArg {op : ByteArgOp} (h : opOf w = op.code) :
    decodeCommand w bs = decodeByteArg op (op.command (argByteOf w)) w := by
  cases op <;> simp [decodeCommand, h, ByteArgOp.code, ByteArgOp.command]

theorem decodeCommand_op8F (h : 8 ≤ (opOf w).toNat) :
    decodeCommand w bs = .reservedOp8F (w.extractLsb' 12 3) (argOf w) := by
  unfold decodeCommand
  split
  case h_9 => rfl
  all_goals omega

theorem decodeCommand_noArg_zero {op : NoArgOp} (h : opOf w = op.code) (harg : argOf w = 0) :
    decodeCommand w bs = op.command := (decodeCommand_noArg bs h).trans (if_pos harg)

theorem decodeCommand_noArg_illegal {op : NoArgOp} (h : opOf w = op.code) (harg : argOf w ≠ 0) :
    decodeCommand w bs = .illegalNoArg op (argOf w) := (decodeCommand_noArg bs h).trans (if_neg harg)

theorem decodeCommand_byteArg_zero {op : ByteArgOp} (h : opOf w = op.code) (hhi : argHiOf w = 0) :
    decodeCommand w bs = op.command (argByteOf w) := (decodeCommand_byteArg bs h).trans (if_pos hhi)

theorem decodeCommand_byteArg_illegal {op : ByteArgOp} (h : opOf w = op.code) (hhi : argHiOf w ≠ 0) :
    decodeCommand w bs = .illegalByteArg op (argHiOf w) (argByteOf w) :=
  (decodeCommand_byteArg bs h).trans (if_neg hhi)

end

/-! ## The masks of the opcode table -/

/-- A mask that keeps all of a field, with the match it selects, fixes the field. -/
theorem extractLsb'_of_mask {w m v : Word16} {start len : Nat} (hm : m.extractLsb' start len = BitVec.allOnes len)
    (h : w &&& m = v) : w.extractLsb' start len = v.extractLsb' start len := by
  rw [← h, BitVec.extractLsb'_and, hm, BitVec.and_allOnes]

/-- Settles O54: each mask keeps the fields that the match fixes, and those fields choose the arm of the decoder. -/
theorem commandWordsDecodeByMask : Obligations.CommandWordsDecodeByMask := by
  refine fun w bs => ⟨fun h => ?_, fun h => ?_, fun h => ?_, fun h => ?_, fun h => ?_, fun h => ?_, fun h => ?_⟩
  · exact decodeCommand_noArg_zero bs (op := .reset) (extractLsb'_of_mask rfl h) (extractLsb'_of_mask rfl h)
  · exact decodeCommand_op2 bs (extractLsb'_of_mask rfl h)
  · exact decodeCommand_op3 bs (extractLsb'_of_mask rfl h)
  · exact decodeCommand_byteArg_zero bs (op := .decodeByte) (extractLsb'_of_mask rfl h) (extractLsb'_of_mask rfl h)
  · exact decodeCommand_noArg_zero bs (op := .isCompleted) (extractLsb'_of_mask rfl h) (extractLsb'_of_mask rfl h)
  · exact decodeCommand_noArg_zero bs (op := .size) (extractLsb'_of_mask rfl h) (extractLsb'_of_mask rfl h)
  · exact decodeCommand_byteArg_zero bs (op := .readByte) (extractLsb'_of_mask rfl h) (extractLsb'_of_mask rfl h)

/-- Settles O55, one written word at a time. -/
theorem writtenWordsDecode : Obligations.WrittenWordsDecode := ⟨rfl, rfl, rfl, rfl, rfl, rfl, rfl⟩

/-! ## From an instruction to its encoding and back -/

/-- Every row's CMD16 encoding is a word with exactly the beats it takes (R71, R73). -/
theorem wellFramed (i : Instr) : Laws.WellFramed.Statement i := by
  cases i with
  | reset => exact Laws.WellFramed.reset
  | encode raw => exact Laws.WellFramed.encode raw
  | decodeMsg f => exact Laws.WellFramed.decodeMsg f
  | decodeByte b => exact Laws.WellFramed.decodeByte b
  | isCompleted => exact Laws.WellFramed.isCompleted
  | size => exact Laws.WellFramed.size
  | readByte k => exact Laws.WellFramed.readByte k
  | reservedOp0 arg => exact Laws.WellFramed.reservedOp0 arg
  | reservedOp8F low arg => exact Laws.WellFramed.reservedOp8F low arg
  | illegalNoArg op arg => exact Laws.WellFramed.illegalNoArg op arg
  | illegalByteArg op hi lo => exact Laws.WellFramed.illegalByteArg op hi lo
  | _ => exact fun _ _ h => nomatch h

/-- A word and its beats can be told from the items they make. -/
theorem framed_inj {v w : Word16} {cs bs : List Byte}
    (h : Encoding.cmd16 (.word v :: cs.map .beat) = .cmd16 (.word w :: bs.map .beat)) : v = w ∧ cs = bs := by
  obtain ⟨hw, hbs⟩ := List.cons.inj (Encoding.cmd16.inj h)
  exact ⟨HostItem.word.inj hw, List.map_injective_iff.mpr (fun _ _ => HostItem.beat.inj) hbs⟩

/-- Where a word alone is a word and its beats, it is that word, and there are no beats. -/
theorem word_inj {v w : Word16} {bs : List Byte}
    (h : Encoding.cmd16 [.word v] = .cmd16 (.word w :: bs.map .beat)) : v = w :=
  (framed_inj (cs := []) h).1

/-- The word of a reserved OP 0x8 to 0xF, by its OP and by OP's low three bits (R72). -/
theorem cmdWord_op8F (low : BitVec 3) (arg : BitVec 12) :
    8 ≤ (opOf (cmdWord ((1 : BitVec 1) ++ low) arg)).toNat ∧
    (cmdWord ((1 : BitVec 1) ++ low) arg).extractLsb' 12 3 = low := by
  constructor
  · rw [opOf_cmdWord]
    revert low
    decide
  · rw [cmdWord, BitVec.extractLsb'_append_eq_of_le (Nat.le_refl 12)]
    exact BitVec.extractLsb'_append_eq_right

theorem decodeCommand_cmdWord_noArg (op : NoArgOp) (bs : List Byte) :
    decodeCommand (cmdWord op.code 0) bs = op.command :=
  decodeCommand_noArg_zero bs (opOf_cmdWord _ _) (argOf_cmdWord _ _)

theorem decodeCommand_cmdWord_byteArg (op : ByteArgOp) (b : Byte) (bs : List Byte) :
    decodeCommand (cmdWord op.code (byteArg 0 b)) bs = op.command b := by
  rw [decodeCommand_byteArg_zero bs (opOf_cmdWord _ _) (argHiOf_cmdWord _ _ _), argByteOf_cmdWord]

/-- The word and beats of a well-formed instruction's encoding stand for it, row by row. -/
theorem decodeCommand_of_encode {i : Instr} {w : Word16} {bs : List Byte} (hi : i.WellFormed)
    (h : encode i = .cmd16 (.word w :: bs.map .beat)) : decodeCommand w bs = i := by
  cases i with
  | reset => exact word_inj h ▸ decodeCommand_cmdWord_noArg .reset bs
  | encode raw =>
    obtain ⟨rfl, rfl⟩ := framed_inj h
    exact decodeCommand_op2 _ (opOf_cmdWord _ _)
  | decodeMsg f =>
    obtain ⟨rfl, rfl⟩ := framed_inj h
    exact decodeCommand_op3 _ (opOf_cmdWord _ _)
  | decodeByte b => exact word_inj h ▸ decodeCommand_cmdWord_byteArg .decodeByte b bs
  | isCompleted => exact word_inj h ▸ decodeCommand_cmdWord_noArg .isCompleted bs
  | size => exact word_inj h ▸ decodeCommand_cmdWord_noArg .size bs
  | readByte k => exact word_inj h ▸ decodeCommand_cmdWord_byteArg .readByte k bs
  | reservedOp0 arg =>
    obtain rfl := word_inj h
    rw [decodeCommand_op0 _ (opOf_cmdWord _ _), argOf_cmdWord]
  | reservedOp8F low arg =>
    obtain rfl := word_inj h
    obtain ⟨hop, hlow⟩ := cmdWord_op8F low arg
    rw [decodeCommand_op8F _ hop, hlow, argOf_cmdWord]
  | illegalNoArg op arg =>
    obtain rfl := word_inj h
    have harg : argOf (cmdWord op.code arg) ≠ 0 := by rw [argOf_cmdWord]; exact of_decide_eq_true hi
    rw [decodeCommand_noArg_illegal _ (opOf_cmdWord _ _) harg, argOf_cmdWord]
  | illegalByteArg op hi' lo =>
    obtain rfl := word_inj h
    have hhi : argHiOf (cmdWord op.code (byteArg hi' lo)) ≠ 0 := by rw [argHiOf_cmdWord]; exact of_decide_eq_true hi
    rw [decodeCommand_byteArg_illegal _ (opOf_cmdWord _ _) hhi, argHiOf_cmdWord, argByteOf_cmdWord]
  | _ => cases h

/-- The items of a well-formed instruction's encoding decode to it, and leave what follows them. -/
theorem decode_of_encode {i : Instr} {items : List HostItem} (rest : List HostItem) (hi : i.WellFormed)
    (h : encode i = .cmd16 items) : decode (items ++ rest) = .ok i rest := by
  obtain ⟨w, bs, rfl, hbeats⟩ := wellFramed i hi items h
  rw [List.cons_append, decode_framed rest hbeats, decodeCommand_of_encode hi h]

/-- A well-formed byte class of the decoder is the class of the byte it is encoded as, in its decoder state (R65). -/
theorem classifyRx_of_encode {i : Instr} {st : DecState} {b : Byte} (hi : i.WellFormed)
    (h : encode i = .rxByte st b) : classifyRx st b = i := by
  cases i with
  | rxHeader => cases h; rfl
  | rxNoise b => cases h; exact if_neg (of_decide_eq_true hi)
  | rxFooter => cases h; rfl
  | rxEscape => cases h; rfl
  | rxCorrupt => cases h; rfl
  | rxData b =>
    cases h
    obtain ⟨hh, he, hf⟩ : b ≠ HDR ∧ b ≠ ESC ∧ b ≠ FTR := by simpa [not_or] using of_decide_eq_true hi
    simp [classifyRx, hh, he, hf]
  | rxEscaped b => cases h; rfl
  | _ => cases h

/-- A well-formed byte class of the encoder is the class of the byte it is encoded as (R62). -/
theorem classifyTx_of_encode {i : Instr} {b : Byte} (hi : i.WellFormed) (h : encode i = .txByte b) :
    classifyTx b = i := by
  cases i with
  | txSpecial b => cases h; exact if_pos (of_decide_eq_true hi)
  | txOrdinary b => cases h; exact if_neg (of_decide_eq_true hi)
  | _ => cases h

/-- Settles O56, by the format of the encoding. -/
theorem decodeOfEncodeIsInstruction : Obligations.DecodeOfEncodeIsInstruction := by
  intro i hi
  cases h : encode i with
  | cmd16 items =>
    have hdecode := decode_of_encode [] hi h
    rw [List.append_nil] at hdecode
    rw [decodeEncoding, hdecode]
  | rxByte st b => exact congrArg some (classifyRx_of_encode hi h)
  | txByte b => exact congrArg some (classifyTx_of_encode hi h)

/-! ## From an encoding to its instruction and back -/

theorem beatCount_zero {w : Word16} (h : opOf w ≠ 2 ∧ opOf w ≠ 3) : beatCount w = 0 := if_neg (not_or.mpr h)

theorem beatCount_counted {w : Word16} (h : opOf w = 2 ∨ opOf w = 3) : beatCount w = (argOf w).toNat := if_pos h

/-- A counting word and the beats it takes are what `withBeats` makes of the beats (R71). -/
theorem withBeats_of_counted {w : Word16} {bs : List Byte} (hop : opOf w = 2 ∨ opOf w = 3)
    (hbs : bs.length = beatCount w) : withBeats (opOf w) bs = .word w :: bs.map .beat := by
  rw [withBeats, hbs, beatCount_counted hop, BitVec.ofNat_toNat, BitVec.setWidth_eq, cmdWord_fields]

/-- The length that a counting word gives is one that 12 bits can hold (R71). -/
theorem length_le_of_counted {w : Word16} {bs : List Byte} (hop : opOf w = 2 ∨ opOf w = 3)
    (hbs : bs.length = beatCount w) : bs.length ≤ 4095 := by
  have := (argOf w).isLt
  rw [hbs, beatCount_counted hop]
  omega

theorem cmdWord_of_op {w : Word16} {op : BitVec 4} (h : opOf w = op) : cmdWord op (argOf w) = w := h ▸ cmdWord_fields w

/-- The instruction is well-formed and encoded as these items. -/
def EncodedAs (i : Instr) (items : List HostItem) : Prop := i.WellFormed ∧ encode i = .cmd16 items

theorem encodedAs_noArg {w : Word16} {op : NoArgOp} (h : opOf w = op.code) :
    EncodedAs (decodeCommand w []) [.word w] := by
  have hw := cmdWord_of_op h
  by_cases harg : argOf w = 0
  · rw [decodeCommand_noArg_zero _ h harg, ← hw, harg]
    cases op <;> exact ⟨rfl, rfl⟩
  · rw [decodeCommand_noArg_illegal _ h harg]
    exact ⟨decide_eq_true harg, by rw [encode, hw]⟩

theorem encodedAs_byteArg {w : Word16} {op : ByteArgOp} (h : opOf w = op.code) :
    EncodedAs (decodeCommand w []) [.word w] := by
  have hw : cmdWord op.code (byteArg (argHiOf w) (argByteOf w)) = w := by rw [byteArg_fields, cmdWord_of_op h]
  by_cases hhi : argHiOf w = 0
  · rw [hhi] at hw
    rw [decodeCommand_byteArg_zero _ h hhi]
    refine ⟨by cases op <;> rfl, .trans ?_ (congrArg (fun v => Encoding.cmd16 [.word v]) hw)⟩
    cases op <;> rfl
  · rw [decodeCommand_byteArg_illegal _ h hhi]
    exact ⟨decide_eq_true hhi, by rw [encode, hw]⟩

/-- A word with a reserved OP 0x8 to 0xF is 1, OP's low three bits and ARG (R72). -/
theorem cmdWord_of_op8F {w : Word16} (h : 8 ≤ (opOf w).toNat) :
    cmdWord ((1 : BitVec 1) ++ w.extractLsb' 12 3) (argOf w) = w := by
  have hop : (1 : BitVec 1) ++ w.extractLsb' 12 3 = opOf w := by
    have hlow : w.extractLsb' 12 3 = (opOf w).extractLsb' 0 3 := by
      ext i hi
      simp [opOf]
      omega
    have happend : ∀ op : BitVec 4, 8 ≤ op.toNat → (1 : BitVec 1) ++ op.extractLsb' 0 3 = op := by decide
    rw [hlow, happend _ h]
  rw [hop, cmdWord_fields]

/-- What a word and its beats decode to is well-formed and encoded as that word and those beats. -/
theorem encodedAs_decodeCommand {w : Word16} {bs : List Byte} (hbs : bs.length = beatCount w) :
    EncodedAs (decodeCommand w bs) (.word w :: bs.map .beat) := by
  have hnil : opOf w ≠ 2 ∧ opOf w ≠ 3 → bs = [] := fun h => List.length_eq_zero_iff.mp (hbs.trans (beatCount_zero h))
  obtain h | ⟨op, h⟩ | h | h | ⟨op, h⟩ | h := opOf_cases w
  · obtain rfl := hnil (by rw [h]; decide)
    rw [decodeCommand_op0 _ h]
    exact ⟨rfl, by rw [encode, cmdWord_of_op h]; rfl⟩
  · obtain rfl := hnil (by rw [h]; cases op <;> decide)
    exact encodedAs_noArg h
  · rw [decodeCommand_op2 _ h]
    exact ⟨decide_eq_true (length_le_of_counted (.inl h) hbs), by rw [encode, ← withBeats_of_counted (.inl h) hbs, h]⟩
  · rw [decodeCommand_op3 _ h]
    exact ⟨decide_eq_true (length_le_of_counted (.inr h) hbs), by rw [encode, ← withBeats_of_counted (.inr h) hbs, h]⟩
  · obtain rfl := hnil (by rw [h]; cases op <;> decide)
    exact encodedAs_byteArg h
  · obtain rfl := hnil ⟨fun h2 => by simp [h2] at h, fun h3 => by simp [h3] at h⟩
    rw [decodeCommand_op8F _ h]
    exact ⟨rfl, by rw [encode, cmdWord_of_op8F h]; rfl⟩

theorem encode_classifyRx (st : DecState) (b : Byte) :
    (classifyRx st b).WellFormed ∧ encode (classifyRx st b) = .rxByte st b := by
  cases st with
  | waitHeader =>
    by_cases h : b = HDR
    · rw [h]; exact ⟨rfl, rfl⟩
    · rw [show classifyRx .waitHeader b = .rxNoise b from if_neg h]
      exact ⟨decide_eq_true h, rfl⟩
  | inFrame =>
    by_cases h : Special b
    · obtain rfl | rfl | rfl := h <;> exact ⟨rfl, rfl⟩
    · have hclass := classifyRx_of_encode (i := .rxData b) (decide_eq_true h) rfl
      rw [hclass]
      exact ⟨decide_eq_true h, rfl⟩
  | afterEscape => exact ⟨rfl, rfl⟩

theorem encode_classifyTx (b : Byte) : (classifyTx b).WellFormed ∧ encode (classifyTx b) = .txByte b := by
  unfold classifyTx
  split
  · next h => exact ⟨decide_eq_true h, rfl⟩
  · next h => exact ⟨decide_eq_true h, rfl⟩

/-- Settles O57: a whole command is a word and its beats, and every byte has its class. -/
theorem encodeOfDecodeIsEncoding : Obligations.EncodeOfDecodeIsEncoding := by
  refine ⟨fun e i h => ?_, fun st b => ⟨_, rfl⟩, fun b => ⟨_, rfl⟩⟩
  cases e with
  | cmd16 items =>
    rw [decodeEncoding] at h
    split at h
    · next hdecode =>
      cases h
      obtain ⟨w, bs, rfl, hbs, rfl⟩ := decode_eq_ok hdecode
      rw [List.append_nil]
      exact encodedAs_decodeCommand hbs
    · cases h
  | rxByte st b => cases h; exact encode_classifyRx st b
  | txByte b => cases h; exact encode_classifyTx b

end Sys2Proof
end

section
/-! The family of 30_encoding.md: what a step does with the host's items (R71 to R73). -/

namespace Sys2Proof

/-- While beats are missing, and nothing but beats has arrived, taking them waits (R71). -/
theorem takeBeats_missing {n : Nat} {bs : List Byte} (h : bs.length < n) :
    takeBeats n (bs.map .beat) = .error .missingBeats := by
  induction bs generalizing n with
  | nil => cases n with
    | zero => cases h
    | succ n => rfl
  | cons b bs ih => cases n with
    | zero => cases h
    | succ n => rw [List.map_cons, takeBeats, ih (Nat.lt_of_succ_lt_succ h)]; rfl

/-- A word that takes no beats decodes alone (R72). -/
theorem decode_word_alone {w : Word16} (rest : List HostItem) (h : beatCount w = 0) :
    decode (.word w :: rest) = .ok (decodeCommand w []) rest := decode_framed (bs := []) rest h.symm

end Sys2Proof

namespace Sys2Proof.Machine

/-- Settles O50: it is how a step is defined. -/
theorem stepRunsDecodedInstruction : Obligations.StepRunsDecodedInstruction := fun _ _ _ h => step_of_decode h

/-- Settles O51: the items of the instruction decode to it, whatever follows. -/
theorem stepTakesWordAndAllBeats : Obligations.StepTakesWordAndAllBeats := fun _ _ _ rest hi h hinbox =>
  step_of_decode (hinbox ▸ decode_of_encode rest hi h)

/-- Settles O52: decoding finds nothing, or a word whose beats are missing, and a step then waits. -/
theorem blockWaitsForCompleteCommand : Obligations.BlockWaitsForCompleteCommand := by
  refine fun s w bs => ⟨fun h => ?_, fun h hmissing => ?_⟩
  · exact step_of_error (e := .empty) (h ▸ rfl)
  · exact step_of_error (e := .missingBeats) (by rw [h, decode, takeBeats_missing hmissing]; rfl)

/-! ## Illegal words -/

/-- The rows of the opcode table that stand for an illegal word (R72). -/
inductive Illegal : Instr → Prop where
  | reservedOp0 (arg : BitVec 12) : Illegal (.reservedOp0 arg)
  | reservedOp8F (low : BitVec 3) (arg : BitVec 12) : Illegal (.reservedOp8F low arg)
  | illegalNoArg (op : NoArgOp) (arg : BitVec 12) : Illegal (.illegalNoArg op arg)
  | illegalByteArg (op : ByteArgOp) (hi : BitVec 4) (lo : Byte) : Illegal (.illegalByteArg op hi lo)

/-- An illegal word returns FAIL(ILLEGAL) and changes nothing (R176). -/
theorem exec_of_illegal {i : Instr} (h : Illegal i) (s : State) : exec i s = .next (s.respond (.fail .illegal)) := by
  cases h <;> rfl

/-- The words of R72, by their fields. -/
def IllegalWord (w : Word16) : Prop :=
  opOf w = 0x0 ∨ 8 ≤ (opOf w).toNat ∨ ((opOf w = 0x1 ∨ opOf w = 0x5 ∨ opOf w = 0x6) ∧ argOf w ≠ 0) ∨
    ((opOf w = 0x4 ∨ opOf w = 0x7) ∧ argHiOf w ≠ 0)

theorem IllegalWord.decodeCommand {w : Word16} (h : IllegalWord w) (bs : List Byte) :
    Illegal (decodeCommand w bs) := by
  obtain h | h | ⟨h, harg⟩ | ⟨h, hhi⟩ := h
  · rw [decodeCommand_op0 bs h]
    exact .reservedOp0 _
  · rw [decodeCommand_op8F bs h]
    exact .reservedOp8F _ _
  · obtain ⟨op, hop⟩ : ∃ op : NoArgOp, opOf w = op.code := by
      obtain h | h | h := h
      · exact ⟨.reset, h⟩
      · exact ⟨.isCompleted, h⟩
      · exact ⟨.size, h⟩
    rw [decodeCommand_noArg_illegal bs hop harg]
    exact .illegalNoArg _ _
  · obtain ⟨op, hop⟩ : ∃ op : ByteArgOp, opOf w = op.code := by
      obtain h | h := h
      · exact ⟨.decodeByte, h⟩
      · exact ⟨.readByte, h⟩
    rw [decodeCommand_byteArg_illegal bs hop hhi]
    exact .illegalByteArg _ _ _

/-- OP alone decides whether beats follow, so an illegal word takes none (R72). -/
theorem IllegalWord.beatCount {w : Word16} (h : IllegalWord w) : beatCount w = 0 := by
  refine beatCount_zero ⟨fun h2 => ?_, fun h3 => ?_⟩
  · simp [IllegalWord, h2] at h
  · simp [IllegalWord, h3] at h

/-- Settles O14: an illegal word decodes alone, to one of the four illegal rows. -/
theorem illegalWordsChangeNothing : Obligations.IllegalWordsChangeNothing := by
  intro s w rest hinbox (hw : IllegalWord w)
  rw [step_of_decode (hinbox ▸ decode_word_alone rest hw.beatCount), exec_of_illegal (hw.decodeCommand [])]
  rfl

end Sys2Proof.Machine
end

section
/-! The family of 30_encoding.md: responses (R67, R70) and the content read byte by byte (R75). -/

namespace Sys2Proof.Machine

/-! ## The fields of a response word -/

/-- Each field of a response word is what was put there. -/
theorem responseWord_fields (ok : BitVec 1) (kind : BitVec 3) (zeros : BitVec 4) (data : Byte) :
    (ok ++ kind ++ zeros ++ data).extractLsb' 15 1 = ok ∧ (ok ++ kind ++ zeros ++ data).extractLsb' 12 3 = kind ∧
    (ok ++ kind ++ zeros ++ data).extractLsb' 8 4 = zeros ∧ (ok ++ kind ++ zeros ++ data).extractLsb' 0 8 = data := by
  refine ⟨?_, ?_, ?_, BitVec.extractLsb'_append_eq_right⟩
  · rw [BitVec.extractLsb'_append_eq_of_le (by decide), BitVec.extractLsb'_append_eq_of_le (by decide)]
    exact BitVec.extractLsb'_append_eq_left
  · rw [BitVec.extractLsb'_append_eq_of_le (by decide), BitVec.extractLsb'_append_eq_of_le (by decide)]
    exact BitVec.extractLsb'_append_eq_right
  · rw [BitVec.extractLsb'_append_eq_of_le (by decide)]
    exact BitVec.extractLsb'_append_eq_right

theorem Kind.code_ne_zero (k : Kind) : k.code ≠ 0 := by
  cases k <;> decide

/-- Settles O11: the response word is its fields put one after another. -/
theorem responseWordLayout : Obligations.ResponseWordLayout := by
  refine ⟨fun d => responseWord_fields 1 0 0 d, fun k => ?_, rfl, rfl, rfl, rfl, rfl⟩
  obtain ⟨hok, hkind, hzeros, hdata⟩ := responseWord_fields 0 k.code 0 0
  exact ⟨hok, hkind, k.code_ne_zero, hzeros, hdata⟩

@[simp] theorem respData_ok (d : Byte) : respData (Response.ok d).toWord = d := BitVec.extractLsb'_append_eq_right

/-! ## One response per command -/

/-- Every instruction but the encoder's byte classes returns one response (R67). -/
theorem exec_responds {i : Instr} {s t : State} (hspecial : ∀ b, i ≠ .txSpecial b) (hordinary : ∀ b, i ≠ .txOrdinary b)
    (h : exec i s = .next t) : ∃ r : Response, t.outbox = s.outbox ++ [r.toWord] := by
  cases i with
  | encode raw =>
    obtain ⟨-, h'⟩ | ⟨-, h'⟩ := exec_encode_cases raw s <;> cases h'.symm.trans h
    · exact ⟨.ok 0, by simp⟩
    · exact ⟨_, rfl⟩
  | decodeMsg f =>
    obtain ⟨-, -, hend⟩ := decodeEnd_frame (decodeWalk f s.resetCore)
    obtain ⟨-, -, hwalk⟩ := decodeWalk_frame f s.resetCore
    cases h
    exact ⟨_, congrArg (· ++ _) (hend.trans hwalk)⟩
  | decodeByte b =>
    obtain ⟨-, -, hstep⟩ := decoderStep_frame b s
    cases h
    exact ⟨_, congrArg (· ++ _) hstep⟩
  | readByte k =>
    obtain ⟨r, h'⟩ := exec_of_onlyAnswers (.readByte k) s
    cases h'.symm.trans h
    exact ⟨r, rfl⟩
  | rxNoise b => obtain ⟨-, h'⟩ | ⟨-, h'⟩ := exec_rxNoise_cases b s <;> cases h'.symm.trans h <;> exact ⟨_, rfl⟩
  | rxData b => obtain ⟨-, h'⟩ | ⟨-, h'⟩ := exec_rxData_cases b s <;> cases h'.symm.trans h <;> exact ⟨_, rfl⟩
  | rxEscaped b => obtain ⟨-, h'⟩ | ⟨-, h'⟩ := exec_rxEscaped_cases b s <;> cases h'.symm.trans h <;> exact ⟨_, rfl⟩
  | txSpecial b => exact absurd rfl (hspecial b)
  | txOrdinary b => exact absurd rfl (hordinary b)
  | _ => cases h; exact ⟨_, rfl⟩

/-- Settles O12: the encoder's byte classes only append, and every other instruction ends with its response. -/
theorem oneResponsePerCommand : Obligations.OneResponsePerCommand := by
  refine fun i s t h => ⟨fun hspecial hordinary => exec_responds hspecial hordinary h, ?_⟩
  rintro (⟨b, rfl⟩ | ⟨b, rfl⟩)
  · rw [exec_txSpecial_eq_next h]
    rfl
  · rw [exec_txOrdinary_eq_next h]
    rfl

/-! ## Reading the content -/

/-- READ_BYTE of an index of the content returns its byte (R153). -/
theorem exec_readByte_ofNat {s : State} {k : Nat} (hs : s.cursor.toNat ≤ s.cfg.bufSize) (hk : k < s.cursor.toNat) :
    exec (.readByte (BitVec.ofNat 8 k)) s = .next (s.respond (.ok (s.bufRead k))) := by
  have hindex : (BitVec.ofNat 8 k).toNat = k := by
    have := s.cursor.isLt
    rw [BitVec.toNat_ofNat]
    omega
  obtain ⟨-, h⟩ | ⟨hnot, -⟩ := exec_readByte_cases (BitVec.ofNat 8 k) s
  · rw [h, hindex]
  · rw [hindex] at hnot
    exact absurd ⟨hk, Nat.lt_of_lt_of_le hk hs⟩ hnot

/-- READ_BYTEs of indices of the content return their bytes in order, and change nothing (R75). -/
theorem execAll_readBytes {s : State} {ks : List Nat} (hs : s.cursor.toNat ≤ s.cfg.bufSize)
    (hks : ∀ k ∈ ks, k < s.cursor.toNat) :
    execAll (ks.map fun k => .readByte (BitVec.ofNat 8 k)) s =
      .next { s with outbox := s.outbox ++ ks.map fun k => (Response.ok (s.bufRead k)).toWord } := by
  induction ks generalizing s with
  | nil => simp [execAll]
  | cons k ks ih =>
    obtain ⟨hk, hks⟩ := List.forall_mem_cons.mp hks
    rw [List.map_cons, execAll, exec_readByte_ofNat hs hk, andThen_next, ih (s := s.respond _) hs hks]
    simp [State.respond, State.bufRead]

/-- Settles O10: SIZE returns the cursor, and the READ_BYTEs read every index below it. -/
theorem contentsSequenceReturnsContent : Obligations.ContentsSequenceReturnsContent := by
  intro s hs
  have hsize : exec .size s = .next (s.respond (.ok s.cursor)) := rfl
  have hread := execAll_readBytes (s := s.respond (.ok s.cursor)) (ks := List.range s.cursor.toNat) hs
    fun k hk => List.mem_range.mp hk
  rw [contentsSequence, hsize, andThen_next, lastResponse_respond, Option.map_some, respData_ok, Option.getD_some, readAll,
    hread]
  simp [State.respond, State.bufRead, State.content]

end Sys2Proof.Machine
end

section
/-! The family of 30_encoding.md: the wire format (R60 to R64) and what the encoder's byte classes append (R62). -/

namespace Sys2Proof.Machine

/-! ## The escape map -/

theorem escape_eq_flatMap (p : List Byte) : escape p = p.flatMap escapeByte := by
  induction p with
  | nil => rfl
  | cons x p ih => rw [escape, ih, List.flatMap_cons]

/-- The second byte of an escape pair: none of the special bytes (R62, R64). -/
theorem xor_mask_of_special {x : Byte} (h : Special x) : x ^^^ XORM = 0x5B ∨ x ^^^ XORM = 0x5C ∨ x ^^^ XORM = 0x5D := by
  obtain rfl | rfl | rfl := h <;> decide

theorem not_special_xor_mask {x : Byte} (h : Special x) : ¬ Special (x ^^^ XORM) := by
  obtain rfl | rfl | rfl := h <;> decide

/-- The only special byte that the escape map makes is ESC (R64). -/
theorem eq_ESC_of_mem_escape {p : List Byte} {y : Byte} (hy : y ∈ escape p) (hs : Special y) : y = ESC := by
  rw [escape_eq_flatMap] at hy
  obtain ⟨x, -, hx⟩ := List.mem_flatMap.mp hy
  unfold escapeByte at hx
  split at hx
  · next hspecial =>
    obtain rfl | hx := List.mem_cons.mp hx
    · rfl
    · exact absurd (List.mem_singleton.mp hx ▸ hs) (not_special_xor_mask hspecial)
  · next hordinary => exact absurd (List.mem_singleton.mp hx ▸ hs) hordinary

theorem HDR_notMem_escape (p : List Byte) : HDR ∉ escape p := fun h =>
  HDR_ne_ESC (eq_ESC_of_mem_escape h (.inl rfl))

theorem FTR_notMem_escape (p : List Byte) : FTR ∉ escape p := fun h =>
  ESC_ne_FTR (eq_ESC_of_mem_escape h (.inr (.inr rfl))).symm

/-- Every ESC that the escape map makes is followed by a masked special byte (R64). -/
theorem escape_after_ESC {p a b : List Byte} (h : escape p = a ++ ESC :: b) :
    ∃ x r, b = x :: r ∧ (x = 0x5B ∨ x = 0x5C ∨ x = 0x5D) := by
  induction p generalizing a with
  | nil => simp [escape] at h
  | cons x p ih =>
    rw [escape, escapeByte] at h
    split at h
    · next hx =>
      obtain ⟨-, h⟩ | ⟨a, -, h⟩ := List.cons_eq_append_iff.mp h
      · exact ⟨_, _, (List.cons.inj h).2, xor_mask_of_special hx⟩
      · obtain ⟨-, h⟩ | ⟨a, -, h⟩ := List.cons_eq_append_iff.mp h
        · exact absurd (.inr (.inl (List.cons.inj h).1.symm)) (not_special_xor_mask hx)
        · exact ih h
    · next hx =>
      obtain ⟨-, h⟩ | ⟨a, -, h⟩ := List.cons_eq_append_iff.mp h
      · exact absurd (.inr (.inl (List.cons.inj h).1.symm)) hx
      · exact ih h

theorem length_frame (p : List Byte) : (frame p).length = 2 + p.length + specialCount p := by
  simp only [frame, List.length_cons, List.length_append, List.length_nil, length_escape]
  omega

/-- Settles O15, from what the escape map makes of each byte. -/
theorem frameShape : Obligations.FrameShape := by
  refine fun p => ⟨rfl, length_frame p, ?_, HDR_notMem_escape p, FTR_notMem_escape p, fun a b h => escape_after_ESC h⟩
  have := specialCount_le p
  rw [length_frame]
  omega

/-! ## The encoder's byte classes -/

/-- Where there is room, a byte class of the encoder appends what the escape map makes of its byte (R62, R100). -/
theorem exec_classifyTx_next {s : State} {b : Byte} (h : s.cursor.toNat + (escapeByte b).length ≤ s.cfg.bufSize) :
    exec (classifyTx b) s = .next (State.pushAll (escapeByte b) s) := by
  rw [← emitByte_next b h, classifyTx, emitByte]
  split <;> rfl

/-- Appends change the buffer and the cursor only. -/
theorem pushAll_frame (vs : List Byte) (s : State) :
    State.pushAll vs s = { s with buf := (State.pushAll vs s).buf, cursor := (State.pushAll vs s).cursor } := by
  induction vs generalizing s with
  | nil => rfl
  | cons v vs ih => exact ih (s.push v)

/-- Appends leave every byte below the old cursor, and at or above the new one. -/
theorem bufRead_pushAll_other {vs : List Byte} {s : State} {k : Nat} (h : s.cursor.toNat + vs.length ≤ s.cfg.bufSize)
    (hk : k < s.cursor.toNat ∨ s.cursor.toNat + vs.length ≤ k) : (State.pushAll vs s).bufRead k = s.bufRead k := by
  have := bufSize_le s.cfg
  rw [State.bufRead, State.bufRead, lookup_pushAll_other (by omega) hk]

/-- `t` is `s` with the bytes appended at the cursor, and nothing else changed. -/
structure Appended (vs : List Byte) (s t : State) : Prop where
  content : t.content = s.content ++ vs
  cursor : t.cursor.toNat = s.cursor.toNat + vs.length
  frame : t = { s with buf := t.buf, cursor := t.cursor }
  bufRead : ∀ k, k < s.cursor.toNat ∨ s.cursor.toNat + vs.length ≤ k → t.bufRead k = s.bufRead k

theorem pushAll_appended {vs : List Byte} {s : State} (h : s.cursor.toNat + vs.length ≤ s.cfg.bufSize) :
    Appended vs s (State.pushAll vs s) where
  content := content_pushAll (h.trans ((bufSize_le s.cfg).trans (by decide)))
  cursor := pushAll_cursor_toNat (h.trans ((bufSize_le s.cfg).trans (by decide)))
  frame := pushAll_frame vs s
  bufRead _ := bufRead_pushAll_other h

/-- Settles O20: a TX row on a byte of its class is that class, and appends what the escape map makes of the byte. -/
theorem txRowsAppendEscapedByte : Obligations.TxRowsAppendEscapedByte := by
  refine fun s b => ⟨fun hb hroom => ?_, fun hb hroom => ?_⟩
  · have hbytes : escapeByte b = [ESC, b ^^^ XORM] := if_pos hb
    have hexec : exec (.txSpecial b) s = .next (State.pushAll [ESC, b ^^^ XORM] s) := by
      rw [← hbytes, ← exec_classifyTx_next (by rw [hbytes]; exact hroom), classifyTx, if_pos hb]
    obtain ⟨hcontent, hcursor, hframe, hread⟩ := pushAll_appended (s := s) (vs := [ESC, b ^^^ XORM]) hroom
    refine ⟨_, hexec, hcontent, hcursor, hframe, fun k h0 h1 => hread k ?_⟩
    simp only [List.length_cons, List.length_nil]
    omega
  · have hbytes : escapeByte b = [b] := if_neg hb
    have hexec : exec (.txOrdinary b) s = .next (State.pushAll [b] s) := by
      rw [← hbytes, ← exec_classifyTx_next (by rw [hbytes]; exact hroom), classifyTx, if_neg hb]
    obtain ⟨hcontent, hcursor, hframe, hread⟩ := pushAll_appended (s := s) (vs := [b]) hroom
    refine ⟨_, hexec, hcontent, hcursor, hframe, fun k h0 => hread k ?_⟩
    simp only [List.length_cons, List.length_nil]
    omega

end Sys2Proof.Machine
end

section
/-! The family of 30_encoding.md: the expansions of DECODE_MSG and DECODE_STREAM (R75). -/

namespace Sys2Proof.Machine

/-! ## DECODE_MSG as a host would do it -/

theorem SameRegisters.of_outbox (s : State) (o : List Word16) (r : Response) :
    SameRegisters (s.respond r) { s with outbox := o } := ⟨rfl, rfl, rfl, rfl⟩

/-- Settles O31: feeding goes where the walk goes, and each end of the walk is one of the three clauses. -/
theorem decodeMsgEqualsHostSequence : Obligations.DecodeMsgEqualsHostSequence := by
  intro s f
  obtain ⟨o, hfeed⟩ := hostFeed_eq_decodeWalk f s.resetCore (s.outbox ++ [(Response.ok 0).toWord])
  obtain ⟨hcfg, hinbox, hout⟩ := decodeWalk_frame f s.resetCore
  obtain ⟨hcfg', hinbox', hout'⟩ := decodeEnd_frame (decodeWalk f s.resetCore)
  refine ⟨_, _, _, _, _, exec_reset s, hfeed, exec_decodeMsg f s,
    ⟨hcfg'.trans hcfg, hinbox'.trans hinbox, congrArg (· ++ _) (hout'.trans hout)⟩, ?_⟩
  obtain ⟨k, hk, hend⟩ | ⟨hnone, hc, hend⟩ | ⟨hnone, hc, hend⟩ := decodeEnd_cases (decodeWalk f s.resetCore) <;> rw [hend]
  · rw [hk]
    refine ⟨?_, nofun, nofun⟩
    rintro _ ⟨⟩
    exact ⟨rfl, .of_outbox _ _ _, rfl⟩
  · rw [hnone]
    exact ⟨nofun, fun _ _ => ⟨rfl, .of_outbox _ _ _, rfl⟩, fun _ hc' => by simp [hc] at hc'⟩
  · rw [hnone]
    exact ⟨nofun, fun _ hc' => by simp [hc] at hc', fun _ _ => ⟨rfl, ⟨rfl, rfl, rfl⟩, rfl⟩⟩

/-! ## Polling after each byte -/

theorem decodeStream_append (bs cs : List Byte) : decodeStream (bs ++ cs) = decodeStream bs ++ decodeStream cs := by
  induction bs with
  | nil => rfl
  | cons b bs ih => simp [decodeStream, ih]

theorem escOverflowResponse_ok {c : Config} {d : Byte} (h : escOverflowResponse c = .ok d) : d = 0 := by
  unfold escOverflowResponse at h
  split at h
  · cases h
  · exact (Response.ok.inj h).symm

/-- A transition that succeeds returns no data (R127). -/
theorem decoderStep_ok_eq_zero {b : Byte} {s t : State} {d : Byte} (h : decoderStep b s = (t, .ok d)) : d = 0 := by
  rcases decoderStep_cases b s with ⟨-, -, hr⟩ | ⟨-, -, hr⟩ | ⟨-, -, hr⟩ | ⟨-, -, hr⟩ | ⟨-, -, hr⟩ | ⟨-, -, -, hr⟩ |
    ⟨-, -, -, hr⟩ | ⟨-, -, hr⟩ | ⟨-, -, hr⟩ <;> obtain ⟨-, hresponse⟩ := Prod.mk.inj (hr.symm.trans h)
  · exact (Response.ok.inj hresponse).symm
  · exact (Response.ok.inj hresponse).symm
  · exact (Response.ok.inj hresponse).symm
  · exact (Response.ok.inj hresponse).symm
  · cases hresponse
  · exact (Response.ok.inj hresponse).symm
  · cases hresponse
  · exact (Response.ok.inj hresponse).symm
  · exact escOverflowResponse_ok hresponse

/-- The word that IS_COMPLETED returns (R151). -/
theorem toWord_flagByte (c : Bool) : (Response.ok (flagByte c)).toWord = if c = true then 0x8001 else 0x8000 := by
  cases c <;> rfl

/-- DECODE_BYTE and IS_COMPLETED for one byte whose transition succeeds: two responses, the second with the flag. -/
theorem execAll_poll {b : Byte} {s t : State} {d : Byte} (h : decoderStep b s = (t, .ok d)) (is : List Instr)
    (o : List Word16) :
    execAll (.decodeByte b :: .isCompleted :: is) { s with outbox := o } =
      execAll is { t with outbox := o ++ [0x8000, (Response.ok (flagByte t.completed)).toWord] } := by
  have hstep := decoderStep_of_outbox b s o
  obtain rfl := decoderStep_ok_eq_zero h
  rw [h] at hstep
  have happend : o ++ [(0x8000 : Word16), (Response.ok (flagByte t.completed)).toWord] =
      o ++ [(Response.ok 0).toWord] ++ [(Response.ok (flagByte t.completed)).toWord] := by simp; rfl
  rw [execAll, exec_decodeByte, hstep, andThen_next, happend]
  rfl

/-- Polling after each byte of an input with no FTR, whose walk fails nowhere, reads `completed` false every time. -/
theorem execAll_decodeStream_open {g : List Byte} {s u : State} (hs : s.completed = true → s.st = .waitHeader)
    (hg : FTR ∉ g) (h : decodeWalk g s = (u, none)) (is : List Instr) (o : List Word16) :
    execAll (decodeStream g ++ is) { s with outbox := o } =
      execAll is { u with outbox := o ++ List.replicate (2 * g.length) 0x8000 } := by
  induction g generalizing s o with
  | nil => cases h; simp [decodeStream]
  | cons b g ih =>
    obtain ⟨hb, hg⟩ := not_or.mp (mt List.mem_cons.mpr hg)
    rcases hr : decoderStep b s with ⟨m, d | k⟩
    · have hm : m.completed = false := by
        rw [← Bool.not_eq_true]
        intro hm
        exact hb (decoderStep_announces hs (hr ▸ hm)).2.symm
      have hpolled : o ++ [0x8000, (Response.ok (flagByte m.completed)).toWord] ++ List.replicate (2 * g.length) 0x8000 =
          o ++ List.replicate (2 * (b :: g).length) 0x8000 := by
        rw [hm, List.append_assoc, List.length_cons, Nat.mul_succ, Nat.add_comm, List.replicate_add]
        rfl
      rw [decodeWalk_cons_ok hr] at h
      rw [decodeStream, List.cons_append, List.cons_append, execAll_poll hr, ih (by simp [hm]) hg h, hpolled]
    · cases (decodeWalk_cons_fail hr).symm.trans h

/-- Every byte in WaitHeader empties the content and clears the flag (R121, R205). -/
theorem decoderStep_waitHeader (b : Byte) {s : State} (hs : s.st = .waitHeader) :
    ∃ d, decoderStep b s = (s.resetCore.withSt d, .ok 0) := by
  by_cases hb : b = HDR
  · exact ⟨.inFrame, hb ▸ decoderStep_header hs⟩
  · exact ⟨.waitHeader, decoderStep_noise hs hb⟩

theorem exec_decodeByte_waitHeader (b : Byte) {s : State} (hs : s.st = .waitHeader) :
    ∃ t, exec (.decodeByte b) s = .next t ∧ Answered s t 0x8000 ∧ t.completed = false ∧ t.cursor = 0 := by
  obtain ⟨d, hstep⟩ := decoderStep_waitHeader b hs
  have hexec : exec (.decodeByte b) s = .next ((s.resetCore.withSt d).respond (.ok 0)) := congrArg answer hstep
  exact ⟨_, hexec, ⟨rfl, rfl, rfl⟩, rfl, rfl⟩

/-- Polling after each byte of a frame: HDR and the escaped payload hold no FTR, and the last byte is a footer in InFrame
(R75). -/
theorem execAll_decodeStream_frame {p : List Byte} {s : State} (hs : s.st = .waitHeader) (hp : p.length ≤ s.cfg.N) :
    execAll (decodeStream (frame p)) s =
      .next { ((State.pushAll p (s.resetCore.withSt .inFrame)).withSt .waitHeader).withCompleted true with
        outbox := s.outbox ++ (List.replicate (2 * (frame p).length - 1) 0x8000 ++ [0x8001]) } := by
  have hFTR : FTR ∉ HDR :: escape p := by simp [HDR_ne_FTR.symm, FTR_notMem_escape]
  have hlength : 2 * (frame p).length - 1 = 2 * (HDR :: escape p).length + 1 := by
    simp only [frame, List.length_cons, List.length_append, List.length_nil]
    omega
  have hopen := execAll_decodeStream_open (by simp [hs]) hFTR (decodeWalk_open hs hp) (decodeStream [FTR]) s.outbox
  have hclose := execAll_poll (decoderStep_footer (s := State.pushAll p (s.resetCore.withSt .inFrame)) (by simp)) []
    (s.outbox ++ List.replicate (2 * (HDR :: escape p).length) 0x8000)
  rw [← decodeStream_append] at hopen
  rw [State.withCompleted_completed, toWord_flagByte] at hclose
  refine (hopen.trans hclose).trans ?_
  rw [execAll, hlength, List.replicate_succ', List.append_assoc, List.append_assoc]
  rfl

/-- Settles O35: the frame's footer announces it with the payload as the content, and the next byte is received in
WaitHeader. -/
theorem pollingFindsCompletionWindow : Obligations.PollingFindsCompletionWindow := by
  intro s p hs hp
  refine ⟨_, execAll_decodeStream_frame hs hp, rfl, ?_, fun b => exec_decodeByte_waitHeader b rfl⟩
  have hN := s.cfg.N_le
  exact content_pushAll (s := s.resetCore.withSt .inFrame) (by simp; omega)

end Sys2Proof.Machine
end

section
/-! The family of 40_encoder.md: what ENCODE leaves (R100 to R105), and its round trip through DECODE_MSG (R106). -/

namespace Sys2Proof.Machine

/-! ## The state after ENCODE -/

/-- A response returned after work that kept the parameters and the host connection (R67). -/
theorem answered_respond {s t : State} (hcfg : t.cfg = s.cfg) (hinbox : t.inbox = s.inbox) (hout : t.outbox = s.outbox)
    (r : Response) : Answered s (t.respond r) r.toWord :=
  ⟨hcfg, hinbox, congrArg (· ++ [r.toWord]) hout⟩

/-- From the reset state there is room for the whole frame of a payload that fits (R102). -/
theorem pushAll_frame_appended {s : State} {raw : List Byte} (h : raw.length ≤ s.cfg.N) :
    Appended (frame raw) s.resetCore (State.pushAll (frame raw) s.resetCore) :=
  pushAll_appended (by simpa using length_frame_le h)

/-- Settles O16: the frame is appended to the empty content of the reset state. -/
theorem encodeLeavesFrame : Obligations.EncodeLeavesFrame := by
  intro s raw hraw
  obtain ⟨hcontent, hcursor, -, hread⟩ := pushAll_frame_appended hraw
  have hlength : (State.pushAll (frame raw) s.resetCore).cursor.toNat = (frame raw).length := by simpa using hcursor
  exact ⟨_, execEncode_fits hraw, answered_respond (by simp) (by simp) (by simp) (.ok 0), hcontent,
    hlength.trans (length_frame raw), rfl, State.pushAll_st _ _, fun k hk => hread k (.inr (hcursor ▸ hk))⟩

/-- ENCODE leaves WaitHeader, whether the payload fits or not (R100, R103). -/
theorem exec_encode_st {s t : State} {raw : List Byte} (h : exec (.encode raw) s = .next t) : t.st = .waitHeader := by
  obtain ⟨-, h'⟩ | ⟨-, h'⟩ := exec_encode_cases raw s <;> cases h'.symm.trans h
  · exact State.pushAll_st _ _
  · rfl

/-- Settles O17: it is the second outcome of ENCODE, written out. -/
theorem encodeTooLongOnlyResets : Obligations.EncodeTooLongOnlyResets := fun _ _ h => execEncode_tooLong h

/-- Settles O18: the response of each outcome of ENCODE. -/
theorem encodeFailsIffTooLong : Obligations.EncodeFailsIffTooLong := by
  intro s raw
  obtain ⟨hfits, h⟩ | ⟨hlong, h⟩ := exec_encode_cases raw s
  · exact ⟨_, (Response.ok 0).toWord, h, by simp, by simp [respOk_ok, hfits], by simp [respOk_ok]⟩
  · exact ⟨_, (Response.fail .overflow).toWord, h, rfl, by simp [respOk_fail, hlong], fun _ => rfl⟩

/-- Settles O19: the frame of a payload that fits ends inside the buffer, and a failing ENCODE writes nothing. -/
theorem encodeStaysInBuffer : Obligations.EncodeStaysInBuffer := by
  intro s t raw h
  obtain ⟨hraw, h'⟩ | ⟨-, h'⟩ := exec_encode_cases raw s <;> cases h'.symm.trans h
  · obtain ⟨-, hcursor, -, hread⟩ := pushAll_frame_appended hraw
    have hend : s.resetCore.cursor.toNat + (frame raw).length ≤ s.cfg.bufSize := by simpa using length_frame_le hraw
    exact ⟨hcursor.le.trans hend, fun k hk => hread k (.inr (hend.trans hk))⟩
  · exact ⟨Nat.zero_le _, fun _ _ => rfl⟩

/-! ## ENCODE as a sequence of its byte classes -/

theorem exec_classifyTx (x : Byte) (s : State) : exec (classifyTx x) s = emitByte x s := by
  unfold classifyTx emitByte
  split <;> rfl

/-- The byte classes of a payload one after another are ENCODE's walk, with or without room (R100). -/
theorem execAll_classifyTx (raw : List Byte) (s : State) : execAll (raw.map classifyTx) s = encodeWalk raw s := by
  induction raw generalizing s with
  | nil => rfl
  | cons x raw ih => rw [List.map_cons, execAll, encodeWalk, exec_classifyTx, funext ih]

/-- Settles O22: ENCODE's frame answers, so HDR, the walk and FTR each did. -/
theorem encodeRunsTxRows : Obligations.EncodeRunsTxRows := by
  intro s raw hraw
  have hframe : encodeFrame raw s.resetCore = .next (State.pushAll (frame raw) s.resetCore) := encodeFrame_next rfl hraw
  obtain ⟨t, hbody, hfooter⟩ := andThen_eq_next hframe
  obtain ⟨m, hheader, hwalk⟩ := andThen_eq_next hbody
  obtain rfl := appendRaw_eq_next hheader
  refine ⟨t, (execAll_classifyTx raw _).trans hwalk, ?_⟩
  rw [← appendRaw_eq_next hfooter]
  exact execEncode_fits hraw

/-! ## Bytes after ENCODE -/

/-- Bytes with no HDR close no frame in WaitHeader: each is noise (R121). -/
theorem completionEvents_noise {bs : List Byte} {s : State} (hs : s.st = .waitHeader) (hb : HDR ∉ bs) :
    completionEvents bs s = [] := by
  induction bs generalizing s with
  | nil => rfl
  | cons b bs ih =>
    obtain ⟨hhead, htail⟩ := not_or.mp (mt List.mem_cons.mpr hb)
    have hnoise : exec (.decodeByte b) s = .next (s.resetCore.respond (.ok 0)) :=
      congrArg answer (decoderStep_noise hs (Ne.symm hhead))
    rw [completionEvents, hnoise]
    exact ih rfl htail

/-- Settles O23: ENCODE leaves WaitHeader, where bytes with no HDR are noise. -/
theorem encodeAbandonsFrame : Obligations.EncodeAbandonsFrame := fun _ _ _ _ h hb =>
  ⟨exec_encode_st h, completionEvents_noise (exec_encode_st h) hb⟩

/-! ## The round trip -/

/-- DECODE_MSG of a whole frame, from any state with the capacity for its payload: the walk ends on the footer
(R129). -/
theorem exec_decodeMsg_wholeFrame {s : State} {p : List Byte} (h : p.length ≤ s.cfg.N) :
    exec (.decodeMsg (frame p)) s =
      .next ((((State.pushAll p (s.resetCore.withSt .inFrame)).withSt .waitHeader).withCompleted true).respond
        (.ok 0)) := by
  rw [exec_decodeMsg, decodeWalk_wholeFrame (s := s.resetCore) rfl h]
  rfl

/-- Settles O33: ENCODE leaves the frame as the content, and DECODE_MSG of the frame leaves the payload, whose bytes are
appended to the empty content of an opened frame. -/
theorem roundTripRestoresPayload : Obligations.RoundTripRestoresPayload := by
  intro s p hp
  obtain ⟨t, hencode, hanswer, hcontent, -⟩ := encodeLeavesFrame s p hp
  have hp' : p.length ≤ t.cfg.N := hanswer.cfg ▸ hp
  have hpayload := content_pushAll (vs := p) (s := t.resetCore.withSt .inFrame) (by have := t.cfg.N_le; simp; omega)
  have hdecode := exec_decodeMsg_wholeFrame hp'
  rw [← hcontent] at hdecode
  exact ⟨t, _, hencode, hdecode, hanswer, answered_respond (by simp) (by simp) (by simp) (.ok 0), hpayload, rfl,
    rfl⟩

end Sys2Proof.Machine
end

section
/-! The family of 41_decoder.md: the decoder's byte classes taken by themselves (R121 to R126), and the transition table of
DECODE_BYTE (R120, R127). -/

namespace Sys2Proof.Machine

/-! ## The byte classes -/

/-- Settles O24: a reset, with or without the opening of a frame. -/
theorem rxWaitHeaderRows : Obligations.RxWaitHeaderRows := by
  refine fun s => ⟨exec_rxHeader s, fun b hb => ?_⟩
  obtain ⟨hHDR, -⟩ | ⟨-, h⟩ := exec_rxNoise_cases b s
  · exact absurd hHDR hb
  · exact h

/-- Settles O25: each row's next state, written out. -/
theorem rxInFrameSpecialRows : Obligations.RxInFrameSpecialRows := fun s =>
  ⟨exec_rxFooter s, exec_rxEscape s, exec_rxCorrupt s⟩

/-- An append with room under the capacity: the byte stands at the old cursor, which is counted up, and at no other
index (R43). -/
structure AppendedByte (v : Byte) (s t : State) : Prop where
  content : t.content = s.content ++ [v]
  cursor : t.cursor.toNat = s.cursor.toNat + 1
  same : t.bufRead s.cursor.toNat = v
  other : ∀ k, k ≠ s.cursor.toNat → t.bufRead k = s.bufRead k

theorem push_appendedByte {s : State} (v : Byte) (hroom : s.cursor.toNat < s.cfg.N) : AppendedByte v s (s.push v) :=
  have hcursor : s.cursor.toNat < 255 := by have := s.cfg.N_le; omega
  { content := content_push v hcursor
    cursor := push_cursor_toNat v hcursor
    same := by rw [bufRead_push, if_pos rfl]
    other := fun k hk => by rw [bufRead_push, if_neg hk] }

/-- Settles O26: the two outcomes of RX_DATA, of which the cursor excludes the other one. -/
theorem rxDataAppendsOrOverflows : Obligations.RxDataAppendsOrOverflows := by
  intro s b _
  obtain ⟨hroom, h⟩ | ⟨hfull, h⟩ := exec_rxData_cases b s
  · obtain ⟨hcontent, hcursor, -, hother⟩ := push_appendedByte b hroom
    exact ⟨fun _ => ⟨_, h, ⟨rfl, rfl, rfl⟩, hcontent, hcursor, rfl, rfl, hother⟩,
      fun hfull => absurd hroom hfull.not_gt⟩
  · exact ⟨fun hroom => absurd hroom hfull.not_gt, fun _ => h⟩

/-- Settles O27: the two outcomes of RX_ESCAPED, of which the cursor excludes the other one. -/
theorem rxEscapedAppendsOrResets : Obligations.RxEscapedAppendsOrResets := by
  intro s b
  obtain ⟨hroom, h⟩ | ⟨hfull, h⟩ := exec_rxEscaped_cases b s
  · obtain ⟨hcontent, hcursor, -, hother⟩ := push_appendedByte (s := s.withSt .inFrame) (b ^^^ XORM) hroom
    exact ⟨fun _ => ⟨_, h, ⟨rfl, rfl, rfl⟩, hcontent, hcursor, rfl, rfl, hother⟩,
      fun hfull => absurd hroom hfull.not_gt⟩
  · refine ⟨fun hroom => absurd hroom hfull.not_gt, fun _ => ?_⟩
    rw [h, ← toWord_escOverflowResponse]
    rfl

/-! ## DECODE_BYTE -/

/-- Settles O28: the decoder and the classifier make the same tests, and each class runs the transition of its row. -/
theorem decodeByteRunsItsClass : Obligations.DecodeByteRunsItsClass := by
  intro s b
  change answer (decoderStep b s) = exec (classifyRx s.st b) s
  unfold decoderStep classifyRx
  cases s.st with
  | waitHeader =>
    by_cases hHDR : b = HDR
    · rw [hHDR]; rfl
    · simp only [if_neg hHDR]; rfl
  | inFrame =>
    by_cases hFTR : b = FTR
    · rw [hFTR]; rfl
    by_cases hESC : b = ESC
    · rw [hESC]; rfl
    by_cases hHDR : b = HDR
    · rw [hHDR]; rfl
    · simp only [if_neg hFTR, if_neg hESC, if_neg hHDR]; rfl
  | afterEscape => rfl

/-- DECODE_BYTE returns the response of its transition (R120). -/
theorem answered_decoderStep (b : Byte) (s : State) :
    Answered s ((decoderStep b s).1.respond (decoderStep b s).2) (decoderStep b s).2.toWord := by
  obtain ⟨hcfg, hinbox, hout⟩ := decoderStep_frame b s
  exact answered_respond hcfg hinbox hout _

/-- Settles O29: each row of the table is one row of the transition function. -/
theorem decodeByteTransitionTable : Obligations.DecodeByteTransitionTable := by
  intro s b hinv
  have hopen (h : s.st = .inFrame ∨ s.st = .afterEscape) : s.completed = false :=
    hinv (by obtain h | h := h <;> simp [h])
  refine ⟨_, _, exec_decodeByte b s, answered_decoderStep b s, fun hs hb => ?_, fun hs hb => ?_, fun hs hb => ?_,
    fun hs hb => ?_, fun hs hb => ?_, fun hs hb hroom => ?_, fun hs hb hfull => ?_, fun hs hroom => ?_, fun hs hfull => ?_⟩
  · obtain rfl : b = HDR := hb
    rw [decoderStep_header hs]
    exact ⟨rfl, rfl, rfl, rfl, rfl⟩
  · rw [decoderStep_noise hs hb]
    exact ⟨⟨rfl, rfl, rfl⟩, rfl, rfl⟩
  · obtain rfl : b = FTR := hb
    rw [decoderStep_footer hs]
    exact ⟨rfl, rfl, rfl, rfl, rfl⟩
  · obtain rfl : b = ESC := hb
    rw [decoderStep_escape hs]
    exact ⟨rfl, rfl, hopen (.inl hs), rfl, rfl⟩
  · obtain rfl : b = HDR := hb
    rw [decoderStep_corrupt hs]
    exact ⟨⟨rfl, rfl, rfl⟩, rfl, rfl⟩
  · obtain ⟨-, hcursor, hsame, hother⟩ := push_appendedByte b hroom
    rw [decoderStep_data hs hb hroom]
    exact ⟨hs, hcursor, hopen (.inl hs), hsame, hother, rfl⟩
  · rw [decoderStep_dataFull hs hb hfull]
    exact ⟨⟨rfl, rfl, rfl⟩, rfl, rfl⟩
  · obtain ⟨-, hcursor, hsame, hother⟩ := push_appendedByte (s := s.withSt .inFrame) (b ^^^ XORM) hroom
    rw [decoderStep_escaped hs hroom]
    exact ⟨rfl, hcursor, hopen (.inr hs), hsame, hother, rfl⟩
  · rw [decoderStep_escapedFull hs hfull]
    exact ⟨⟨rfl, rfl, rfl⟩, rfl, toWord_escOverflowResponse s.cfg⟩

end Sys2Proof.Machine
end

section
/-! The family of 41_decoder.md: DECODE_MSG by what its walk ends in (R129, R130), and the inputs that it refuses (R132 to
R134). -/

namespace Sys2Proof.Machine

/-! ## DECODE_MSG by the end of its walk -/

/-- A host that feeds an input with no failing byte ends with the registers of the walk (R75). -/
theorem hostFeed_of_decodeWalk {g : List Byte} {s m : State} (h : decodeWalk g s = (m, none)) :
    ∃ u, hostFeed g s = (u, none) ∧ SameRegisters m u := by
  obtain ⟨o, hfeed⟩ := hostFeed_eq_decodeWalk g s s.outbox
  rw [h] at hfeed
  exact ⟨_, hfeed, ⟨rfl, rfl, rfl, rfl⟩⟩

/-- The walk over an input that a host feeds with no failing byte fails nowhere, and ends with the host's registers. -/
theorem decodeWalk_of_hostFeed {g : List Byte} {s u : State} (h : hostFeed g s = (u, none)) :
    ∃ m, decodeWalk g s = (m, none) ∧ SameRegisters m u := by
  obtain ⟨o, hfeed⟩ := hostFeed_eq_decodeWalk g s s.outbox
  obtain ⟨rfl, hnone⟩ := Prod.mk.inj (hfeed.symm.trans h)
  exact ⟨_, Prod.ext rfl (Option.map_eq_none_iff.mp hnone), ⟨rfl, rfl, rfl, rfl⟩⟩

/-- DECODE_MSG returns the response of its end (R129). -/
theorem answered_decodeMsg (f : List Byte) (s : State) :
    Answered s ((decodeEnd (decodeWalk f s.resetCore)).1.respond (decodeEnd (decodeWalk f s.resetCore)).2)
      (decodeEnd (decodeWalk f s.resetCore)).2.toWord := by
  obtain ⟨hcfg, hinbox, hout⟩ := decodeEnd_frame (decodeWalk f s.resetCore)
  obtain ⟨hcfg', hinbox', hout'⟩ := decodeWalk_frame f s.resetCore
  exact answered_respond (s := s) (hcfg.trans hcfg') (hinbox.trans hinbox') (hout.trans hout') _

/-- DECODE_MSG of `f` returns FAIL of the kind and leaves the reset state (R177). -/
def RefusesMsg (f : List Byte) (s : State) (k : Kind) : Prop :=
  ∃ t, exec (.decodeMsg f) s = .next t ∧ Answered s t (Response.fail k).toWord ∧ AtReset t

/-- A failing step of the walk is DECODE_MSG's failure (R129). -/
theorem refusesMsg_of_fail {f : List Byte} {s t : State} {k : Kind} (h : decodeWalk f s.resetCore = (t, some k)) :
    RefusesMsg f s k := by
  have hexec := exec_decodeMsg f s
  have hanswer := answered_decodeMsg f s
  rw [h] at hexec hanswer
  exact ⟨_, hexec, hanswer, (decodeWalk_fail_atReset h : AtReset t)⟩

/-- A walk that ends with no frame announced is a truncation (R129). -/
theorem refusesMsg_of_unfinished {f : List Byte} {s t : State} (h : decodeWalk f s.resetCore = (t, none))
    (ht : t.completed = false) : RefusesMsg f s .truncation := by
  have hend : decodeEnd (t, none) = (t.resetCore, .fail .truncation) := if_neg (by simp [ht])
  have hexec := exec_decodeMsg f s
  have hanswer := answered_decodeMsg f s
  rw [h, hend] at hexec hanswer
  exact ⟨_, hexec, hanswer, rfl, rfl, rfl⟩

/-- DECODE_MSG succeeds where its walk fails nowhere and ends with a frame announced (R129). -/
theorem respOk_decodeEnd_iff (p : State × Option Kind) :
    respOk (decodeEnd p).2.toWord = true ↔ p.2 = none ∧ p.1.completed = true := by
  obtain ⟨k, hk, hend⟩ | ⟨hnone, hc, hend⟩ | ⟨hnone, hc, hend⟩ := decodeEnd_cases p
  · simp [hend, respOk_fail, hk]
  · simp [hend, respOk_ok, hnone, hc]
  · simp [hend, respOk_fail, hc]

/-- Settles O32: an announced frame was closed by the last byte, and a footer in InFrame announces one. -/
theorem decodeMsgSucceedsIffEndsOnFooter : Obligations.DecodeMsgSucceedsIffEndsOnFooter := by
  refine fun s f => ⟨_, _, exec_decodeMsg f s, answered_decodeMsg f s, (respOk_decodeEnd_iff _).trans ⟨?_, ?_⟩⟩
  · rintro ⟨hnone, hc⟩
    obtain ⟨g, m, hf, hg, hm⟩ := decodeWalk_completed (t := (decodeWalk f s.resetCore).1) rfl (Prod.ext rfl hnone) hc
    obtain ⟨u, hu, hregisters⟩ := hostFeed_of_decodeWalk hg
    exact ⟨g, u, hf, hu, hregisters.st ▸ hm⟩
  · rintro ⟨g, u, rfl, hu, hst⟩
    obtain ⟨m, hg, hregisters⟩ := decodeWalk_of_hostFeed hu
    rw [decodeWalk_append hg, decodeWalk_cons_ok (decoderStep_footer (hregisters.st.trans hst))]
    exact ⟨rfl, rfl⟩

/-! ## Inputs that DECODE_MSG refuses -/

/-- Settles O36: the walk reaches HDR in InFrame. -/
theorem unescapedHeaderIsCorruption : Obligations.UnescapedHeaderIsCorruption := by
  intro s u g rest hg hst
  obtain ⟨m, hwalk, hregisters⟩ := decodeWalk_of_hostFeed hg
  exact refusesMsg_of_fail <|
    (decodeWalk_append hwalk).trans (decodeWalk_cons_fail (decoderStep_corrupt (hregisters.st.trans hst)))

/-- One byte more, after a walk that ends in WaitHeader: it clears the flag, whether or not it opens a frame (R121). -/
theorem decodeWalk_concat_waitHeader {f : List Byte} {s t : State} (x : Byte) (h : decodeWalk f s = (t, none))
    (ht : t.st = .waitHeader) : ∃ d, decodeWalk (f ++ [x]) s = (t.resetCore.withSt d, none) := by
  obtain ⟨d, hbyte⟩ := decoderStep_waitHeader x ht
  exact ⟨d, (decodeWalk_append h).trans (decodeWalk_cons_ok hbyte)⟩

/-- Settles O39: the frame leaves WaitHeader, where the byte clears the flag. -/
theorem trailingByteIsTruncation : Obligations.TrailingByteIsTruncation := by
  intro s p x hp
  obtain ⟨d, hwalk⟩ := decodeWalk_concat_waitHeader x (decodeWalk_wholeFrame (s := s.resetCore) rfl hp) rfl
  exact refusesMsg_of_unfinished hwalk rfl

/-! ## A payload byte beyond the capacity -/

/-- Bytes with no HDR leave the reset state as it is (R121). -/
theorem decodeWalk_noise_resetCore {bs : List Byte} (s : State) (hb : HDR ∉ bs) :
    decodeWalk bs s.resetCore = (s.resetCore, none) := by
  rw [decodeWalk_noise (s := s.resetCore) rfl hb]
  split <;> rfl

/-- An escape pair without room for its byte: a reset, with the response that ESC_OVERFLOW_REPORT decides (R126). -/
theorem decodeWalk_escapePairFull {s : State} (y : Byte) (bs : List Byte) (hs : s.st = .inFrame)
    (hfull : s.cfg.N ≤ s.cursor.toNat) : decodeWalk (ESC :: y :: bs) s =
      if s.cfg.escOverflowReport = true then (s.resetCore, some .overflow) else decodeWalk bs s.resetCore := by
  have hpair : decoderStep y (s.withSt .afterEscape) = (s.resetCore, escOverflowResponse s.cfg) :=
    decoderStep_escapedFull rfl hfull
  rw [decodeWalk_cons_ok (decoderStep_escape hs)]
  unfold escOverflowResponse at hpair
  split
  · next hreport => exact decodeWalk_cons_fail (hpair.trans (by rw [if_pos hreport]))
  · next hsilent => exact decodeWalk_cons_ok (hpair.trans (by rw [if_neg hsilent]))

/-- DECODE_MSG of an input whose first part leaves the walk in the reset state of `m` is DECODE_MSG of the rest, taken in
`m`. -/
theorem exec_decodeMsg_append {f more : List Byte} {s m : State} (h : decodeWalk f s.resetCore = (m.resetCore, none)) :
    exec (.decodeMsg (f ++ more)) s = exec (.decodeMsg more) m := by
  rw [exec_decodeMsg, exec_decodeMsg, decodeWalk_append h]

/-- DECODE_MSG begins with a reset, so what it leaves depends on the parameters and the host connection only, but for
stale bytes of the buffer (R129, R32). -/
theorem exec_decodeMsg_alike {s m : State} (f : List Byte) (hcfg : m.cfg = s.cfg) (hinbox : m.inbox = s.inbox)
    (hout : m.outbox = s.outbox) : AnswersAlike (exec (.decodeMsg f) m) (exec (.decodeMsg f) s) := by
  have hreset : SameButStale m.resetCore s.resetCore :=
    ⟨⟨hcfg, rfl, rfl, rfl⟩, fun k hk => absurd hk k.not_lt_zero, hinbox, hout⟩
  rw [← exec_resetCore (.decodeMsg f) m, ← exec_resetCore (.decodeMsg f) s]
  exact exec_alike hreset _

/-- Two answers to `s` that differ in stale bytes only return the same word. -/
theorem Answered.of_alike {s t v : State} {w : Word16} (h : Answered s t w) (halike : SameButStale t v) :
    Answered s v w :=
  ⟨halike.registers.cfg ▸ h.cfg, halike.inbox ▸ h.inbox, halike.outbox ▸ h.outbox⟩

theorem Answered.word_unique {s t : State} {w w' : Word16} (h : Answered s t w) (h' : Answered s t w') : w = w' :=
  (List.cons.inj (List.append_cancel_left (h.outbox.symm.trans h'.outbox))).1

/-- After a silent overflow DECODE_MSG goes on in a reset state: the input that follows is decoded as if it stood
alone. -/
theorem exec_decodeMsg_restart {f : List Byte} {s m : State} (more : List Byte)
    (h : decodeWalk f s.resetCore = (m.resetCore, none)) :
    ∃ t v w, exec (.decodeMsg (f ++ more)) s = .next t ∧ exec (.decodeMsg more) s = .next v ∧ Answered s t w ∧
      Answered s v w ∧ SameRegisters t v ∧ t.content = v.content := by
  obtain ⟨hcfg, hinbox, hout⟩ := decodeWalk_frame f s.resetCore
  rw [h] at hcfg hinbox hout
  have ht := exec_decodeMsg (f ++ more) s
  have hanswer := answered_decodeMsg (f ++ more) s
  obtain ⟨v, hv, halike⟩ := exec_decodeMsg_alike more hcfg hinbox hout _ ((exec_decodeMsg_append h).symm.trans ht)
  exact ⟨_, v, _, ht, hv, hanswer, hanswer.of_alike halike, halike.registers, halike.content_eq⟩

/-- Settles O38: the walk reaches the byte, or the escape pair, in InFrame without room; a silent overflow leaves the
reset state, in which the rest of the frame is noise. -/
theorem overflowInsideMessage : Obligations.OverflowInsideMessage := by
  intro s u g rest hg hst hN
  obtain ⟨m, hwalk, hregisters⟩ := decodeWalk_of_hostFeed hg
  obtain ⟨hcfg, -, -⟩ := decodeWalk_frame g s.resetCore
  rw [hwalk] at hcfg
  replace hcfg : m.cfg = s.cfg := hcfg
  have hframe : m.st = .inFrame := hregisters.st.trans hst
  have hfull : m.cfg.N ≤ m.cursor.toNat := by rw [hcfg, hregisters.cursor, hN]
  have hpair (y : Byte) (bs : List Byte) := (decodeWalk_append hwalk).trans (decodeWalk_escapePairFull y bs hframe hfull)
  rw [hcfg] at hpair
  refine ⟨fun x hx => ?_, fun hreport y => ?_, fun hsilent hrest y => ?_⟩
  · exact refusesMsg_of_fail <|
      (decodeWalk_append hwalk).trans (decodeWalk_cons_fail (decoderStep_dataFull hframe hx hfull))
  · exact refusesMsg_of_fail <| (hpair y rest).trans (if_pos hreport)
  · have hreset : decodeWalk (g ++ ESC :: y :: rest) s.resetCore = (m.resetCore, none) := by
      rw [hpair, if_neg (by simp [hsilent]), decodeWalk_noise_resetCore m hrest]
    refine ⟨refusesMsg_of_unfinished hreset rfl, fun more => ?_⟩
    have hsplit : g ++ ESC :: y :: (rest ++ more) = (g ++ ESC :: y :: rest) ++ more := by simp
    rw [hsplit]
    exact exec_decodeMsg_restart more hreset

/-! ## A frame whose payload is too long -/

/-- HDR and a payload of N bytes, escaped, leave an open frame with N bytes (R106). -/
theorem hostFeed_fullFrame {s : State} {p : List Byte} (hp : p.length = s.cfg.N) :
    ∃ u, hostFeed (HDR :: escape p) s.resetCore = (u, none) ∧ u.st = .inFrame ∧ u.cursor.toNat = s.cfg.N := by
  obtain ⟨u, hu, hregisters⟩ := hostFeed_of_decodeWalk (decodeWalk_open (s := s.resetCore) rfl hp.le)
  have hcursor := pushAll_cursor_toNat (vs := p) (s := s.resetCore.resetCore.withSt .inFrame)
    (by have := s.cfg.N_le; simp; omega)
  exact ⟨u, hu, by simp [← hregisters.st], by rw [← hregisters.cursor, hcursor]; simpa using hp⟩

/-- A payload that fits, appended in an opened frame, is its content (R106). -/
theorem content_openedFrame {s : State} {p : List Byte} (hp : p.length ≤ s.cfg.N) :
    (State.pushAll p (s.resetCore.withSt .inFrame)).content = p :=
  content_pushAll (by have := s.cfg.N_le; simp; omega)

/-- DECODE_MSG of a frame whose payload fits returns OK and leaves the payload as the content (R106, R129). -/
theorem exec_decodeMsg_payload {s : State} {q : List Byte} (hq : q.length ≤ s.cfg.N) :
    ∃ t, exec (.decodeMsg (frame q)) s = .next t ∧ Answered s t 0x8000 ∧ t.content = q :=
  ⟨_, exec_decodeMsg_wholeFrame hq, answered_respond (by simp) (by simp) (by simp) (.ok 0), content_openedFrame hq⟩

/-- A frame cut after the payload `p`: the byte that follows, escaped, and the rest of the frame. -/
theorem frame_append_cons (p r : List Byte) (x : Byte) :
    frame (p ++ x :: r) = (HDR :: escape p) ++ (escapeByte x ++ (escape r ++ [FTR])) := by
  simp [frame, escape_append, escape]

/-- Settles O37: HDR and the first N bytes of the payload leave N bytes in an open frame, where the next byte, plain or
escaped, has no room, and what follows it holds no HDR. -/
theorem longPayloadIsRefused : Obligations.LongPayloadIsRefused := by
  intro s p r x hp
  obtain ⟨u, hu, hst, hN⟩ := hostFeed_fullFrame hp
  obtain ⟨hplain, hreported, hsilent⟩ := overflowInsideMessage s u _ (escape r ++ [FTR]) hu hst hN
  have hrest : HDR ∉ escape r ++ [FTR] := by simp [HDR_notMem_escape, HDR_ne_FTR]
  have hspecial (hx : Special x) : frame (p ++ x :: r) = (HDR :: escape p) ++ ESC :: (x ^^^ XORM) :: (escape r ++ [FTR]) := by
    rw [frame_append_cons, escapeByte, if_pos hx]
    rfl
  refine ⟨fun h => ?_, fun hx hreport => ?_, fun hx hreport q hq => ?_⟩
  · by_cases hx : Special x
    · rw [hspecial hx]
      exact hreported (h.resolve_left (not_not_intro hx)) _
    · rw [frame_append_cons, escapeByte, if_neg hx]
      exact hplain x hx
  · rw [hspecial hx]
    exact (hsilent hreport hrest _).1
  · have hframe : frame (p ++ x :: r) ++ frame q =
        (HDR :: escape p) ++ ESC :: (x ^^^ XORM) :: ((escape r ++ [FTR]) ++ frame q) := by rw [hspecial hx]; simp
    obtain ⟨t, v, w, ht, hv, hanswer, hanswer', -, hcontent⟩ := (hsilent hreport hrest (x ^^^ XORM)).2 (frame q)
    obtain ⟨v', hv', hok, hpayload⟩ := exec_decodeMsg_payload hq
    obtain rfl := Host.Outcome.next.inj (hv.symm.trans hv')
    obtain rfl := hanswer'.word_unique hok
    exact ⟨t, (congrArg (fun f => exec (.decodeMsg f) s) hframe).trans ht, hanswer, hcontent.trans hpayload⟩

end Sys2Proof.Machine
end

section
/-! The family of 41_decoder.md: streams of bytes, received one DECODE_BYTE at a time, and the frames they announce (R128,
R131). -/

namespace Sys2Proof.Machine

/-! ## Bytes one after another -/

theorem feedBytes_cons (b : Byte) (bs : List Byte) (s : State) :
    feedBytes (b :: bs) s = feedBytes bs ((decoderStep b s).1.respond (decoderStep b s).2) := rfl

theorem feedBytes_append {bs cs : List Byte} {s t : State} (h : feedBytes bs s = .next t) :
    feedBytes (bs ++ cs) s = feedBytes cs t := by
  induction bs generalizing s with
  | nil => cases h; rfl
  | cons b bs ih => exact ih h

/-- Bytes whose walk fails nowhere leave what the walk leaves; only the responses returned differ (R120, R129). -/
theorem feedBytes_of_decodeWalk {bs : List Byte} {s t : State} (o : List Word16) (h : decodeWalk bs s = (t, none)) :
    ∃ o', feedBytes bs { s with outbox := o } = .next { t with outbox := o' } := by
  induction bs generalizing s o with
  | nil => cases h; exact ⟨o, rfl⟩
  | cons b bs ih =>
    have hstep := decoderStep_of_outbox b s o
    rcases hr : decoderStep b s with ⟨m, d | k⟩
    · rw [decodeWalk_cons_ok hr] at h
      rw [feedBytes_cons, hstep, hr]
      exact ih (s := m) _ h
    · cases (decodeWalk_cons_fail hr).symm.trans h

/-- Bytes with no HDR, received in WaitHeader, leave WaitHeader (R121). -/
theorem feedBytes_noise {bs : List Byte} {s : State} (hs : s.st = .waitHeader) (hb : HDR ∉ bs) :
    ∃ t, feedBytes bs s = .next t ∧ t.st = .waitHeader ∧ t.cfg = s.cfg := by
  obtain ⟨o, h⟩ := feedBytes_of_decodeWalk s.outbox (decodeWalk_noise hs hb)
  refine ⟨_, h, ?_⟩
  split
  · exact ⟨hs, rfl⟩
  · exact ⟨rfl, rfl⟩

/-- `t` announces a frame with the payload `p`, under the parameters of `s` (R131). -/
structure Announces (p : List Byte) (s t : State) : Prop where
  completed : t.completed = true
  st : t.st = .waitHeader
  content : t.content = p
  cfg : t.cfg = s.cfg

/-- A frame received in WaitHeader is announced (R106, R122). -/
theorem feedBytes_frame {p : List Byte} {s : State} (hs : s.st = .waitHeader) (hp : p.length ≤ s.cfg.N) :
    ∃ t, feedBytes (frame p) s = .next t ∧ Announces p s t := by
  obtain ⟨o, h⟩ := feedBytes_of_decodeWalk s.outbox (decodeWalk_wholeFrame hs hp)
  exact ⟨_, h, rfl, rfl, content_openedFrame hp, State.pushAll_cfg _ _⟩

/-! ## From any state -/

/-- A footer leaves WaitHeader, unless it is received as an escaped byte with room for it, which leaves InFrame (R128). -/
theorem decoderStep_FTR_st (s : State) :
    (decoderStep FTR s).1.st = .waitHeader ∨ s.st = .afterEscape ∧ (decoderStep FTR s).1.st = .inFrame := by
  cases hs : s.st with
  | waitHeader => exact .inl (by rw [decoderStep_noise hs HDR_ne_FTR.symm]; rfl)
  | inFrame => exact .inl (by rw [decoderStep_footer hs]; rfl)
  | afterEscape =>
    rcases Nat.lt_or_ge s.cursor.toNat s.cfg.N with hroom | hfull
    · exact .inr ⟨rfl, by rw [decoderStep_escaped hs hroom]; rfl⟩
    · exact .inl (by rw [decoderStep_escapedFull hs hfull]; rfl)

/-- Two footers leave WaitHeader, whatever the state (R128). -/
theorem feedBytes_two_footers (s : State) :
    ∃ t, feedBytes [FTR, FTR] s = .next t ∧ t.st = .waitHeader ∧ t.cfg = s.cfg := by
  have hfirst := decoderStep_FTR_st s
  obtain ⟨hcfg, -, -⟩ := decoderStep_frame FTR s
  rw [feedBytes_cons]
  generalize decoderStep FTR s = m at hfirst hcfg ⊢
  obtain ⟨hcfg', -, -⟩ := decoderStep_frame FTR (m.1.respond m.2)
  refine ⟨_, feedBytes_cons FTR [] (m.1.respond m.2), ?_, hcfg'.trans hcfg⟩
  obtain hclosed | ⟨hescaped, -⟩ := decoderStep_FTR_st (m.1.respond m.2)
  · exact hclosed
  · obtain h | ⟨-, h⟩ := hfirst <;> cases h.symm.trans hescaped

/-- Settles O40: two footers leave WaitHeader, where the frame is received whole. -/
theorem noStateWedgesDecoder : Obligations.NoStateWedgesDecoder := by
  intro s p hp
  obtain ⟨m, hm, hst, hcfg⟩ := feedBytes_two_footers s
  obtain ⟨t, ht, hannounces⟩ := feedBytes_frame hst (hcfg.symm ▸ hp)
  exact ⟨t, (feedBytes_append hm).trans ht, hannounces.completed, hannounces.st, hannounces.content⟩

/-! ## The completion events of a stream -/

theorem completionEvents_cons (b : Byte) (bs : List Byte) (s : State) :
    completionEvents (b :: bs) s =
      (if (decoderStep b s).1.completed = true then [(decoderStep b s).1.content] else []) ++
        completionEvents bs ((decoderStep b s).1.respond (decoderStep b s).2) := rfl

/-- The events of a stream in two parts: those of the first, then those of the second from where the first ends. -/
theorem completionEvents_append {bs cs : List Byte} {s t : State} (h : feedBytes bs s = .next t) :
    completionEvents (bs ++ cs) s = completionEvents bs s ++ completionEvents cs t := by
  induction bs generalizing s with
  | nil => cases h; rfl
  | cons b bs ih => rw [List.cons_append, completionEvents_cons, completionEvents_cons, ih h, List.append_assoc]

/-- Bytes with no FTR give no event, where the flag was set in WaitHeader only (INV3 of R31). -/
theorem completionEvents_of_no_footer {bs : List Byte} {s : State} (hs : s.completed = true → s.st = .waitHeader)
    (hb : FTR ∉ bs) : completionEvents bs s = [] := by
  induction bs generalizing s with
  | nil => rfl
  | cons b bs ih =>
    obtain ⟨hhead, htail⟩ := not_or.mp (mt List.mem_cons.mpr hb)
    have hquiet : ¬ (decoderStep b s).1.completed = true := fun h => hhead (decoderStep_announces hs h).2.symm
    rw [completionEvents_cons, if_neg hquiet, List.nil_append]
    exact ih (fun h => absurd h hquiet) htail

/-- A footer in InFrame gives one event, the content (R122). -/
theorem completionEvents_footer {s : State} (hs : s.st = .inFrame) : completionEvents [FTR] s = [s.content] := by
  rw [completionEvents_cons, decoderStep_footer hs]
  rfl

/-- A frame received in WaitHeader gives one event, its payload: HDR and the escaped payload hold no FTR (R131). -/
theorem completionEvents_frame {p : List Byte} {s : State} (hs : s.st = .waitHeader) (hp : p.length ≤ s.cfg.N) :
    completionEvents (frame p) s = [p] := by
  have hFTR : FTR ∉ HDR :: escape p := by simp [HDR_ne_FTR.symm, FTR_notMem_escape]
  have hsplit : frame p = (HDR :: escape p) ++ [FTR] := rfl
  obtain ⟨o, hopen⟩ := feedBytes_of_decodeWalk s.outbox (decodeWalk_open hs hp)
  have hfooter := completionEvents_footer
    (s := { State.pushAll p (s.resetCore.withSt .inFrame) with outbox := o }) (State.pushAll_st _ _)
  rw [hsplit, completionEvents_append hopen, completionEvents_of_no_footer (fun _ => hs) hFTR, hfooter]
  exact congrArg (fun q => [q]) (content_openedFrame hp)

/-- Settles O34: a footer in InFrame sets the flag, and it alone; noise gives no event and leaves WaitHeader, where a
frame gives one. -/
theorem streamResynchronises : Obligations.StreamResynchronises := by
  refine ⟨fun s t b hinv h => ?_, fun s m n p q hs hm hn hp hq => ?_⟩
  · obtain rfl := Host.Outcome.next.inj h
    refine ⟨decoderStep_announces fun hc => ?_, ?_⟩
    · by_contra hst
      simp [hinv hst] at hc
    · rintro ⟨hst, rfl⟩
      rw [decoderStep_footer hst]
      rfl
  · obtain ⟨a, ha, hst, hcfg⟩ := feedBytes_noise hs hm
    obtain ⟨b, hb, hannounces⟩ := feedBytes_frame hst (hcfg.symm ▸ hp)
    obtain ⟨c, hc, hst', hcfg'⟩ := feedBytes_noise hannounces.st hn
    have hfit : q.length ≤ c.cfg.N := by rw [hcfg', hannounces.cfg, hcfg]; exact hq
    rw [List.append_assoc, List.append_assoc, completionEvents_append ha, completionEvents_append hb,
      completionEvents_append hc, completionEvents_noise hs hm, completionEvents_frame hst (hcfg.symm ▸ hp),
      completionEvents_noise hannounces.st hn, completionEvents_frame hst' hfit]
    rfl

end Sys2Proof.Machine
end

section
/-! The family of 42_buffer_manager.md: RESET, and the read commands by the word that each returns (R150 to R153). -/

namespace Sys2Proof.Machine

/-! ## RESET and the registers read out -/

/-- A success is OK, bit 15, above its data byte (R70). -/
theorem toNat_toWord_ok (d : Byte) : (Response.ok d).toWord.toNat = 0x8000 + d.toNat := by
  have hhigh : ((1 : BitVec 1) ++ (0 : BitVec 3) ++ (0 : BitVec 4)).toNat = 0x80 := rfl
  rw [Response.toWord, BitVec.toNat_append, hhigh, ← Nat.shiftLeft_add_eq_or_of_lt d.isLt, Nat.shiftLeft_eq]

@[simp] theorem exec_isCompleted (s : State) :
    exec .isCompleted s = .next (s.respond (.ok (flagByte s.completed))) := rfl

@[simp] theorem exec_size (s : State) : exec .size s = .next (s.respond (.ok s.cursor)) := rfl

/-- Settles O5: the reset state with the response OK, written out. -/
theorem resetCommandResult : Obligations.ResetCommandResult :=
  ⟨rfl, fun s => exec_reset s⟩

/-- Settles O6, by the word that each value of the flag is read as. -/
theorem isCompletedReadsFlag : Obligations.IsCompletedReadsFlag := fun s => by
  rw [exec_isCompleted, State.respond, toWord_flagByte]

/-- Settles O7: the word is that of a success with the cursor as its data. -/
theorem sizeReadsCursor : Obligations.SizeReadsCursor :=
  fun s => ⟨_, toNat_toWord_ok s.cursor, exec_size s⟩

/-! ## READ_BYTE -/

/-- Settles O9: an index that READ_BYTE returns is below the cursor and in the buffer. -/
theorem readByteOutsideContentFailsRange : Obligations.ReadByteOutsideContentFailsRange := by
  intro s i houtside
  obtain ⟨⟨hcursor, hbuf⟩, -⟩ | ⟨-, h⟩ := exec_readByte_cases i s
  · omega
  · exact h

/-- Settles O8: under INV4 an index below the cursor is one of the buffer, and one at or above the cursor is outside the
content. -/
theorem readByteReadsContentOnly : Obligations.ReadByteReadsContentOnly := by
  refine fun s i hs => ⟨fun hi => ?_, fun hi => readByteOutsideContentFailsRange s i (.inl hi)⟩
  have hreadable : s.readable i.toNat := ⟨hi, Nat.lt_of_lt_of_le hi hs⟩
  obtain ⟨-, h⟩ | ⟨hnot, -⟩ := exec_readByte_cases i s
  · exact ⟨_, toNat_toWord_ok _, h⟩
  · exact absurd hreadable hnot

end Sys2Proof.Machine
end

section
/-! The family of 60_exceptions.md: what a failure leaves (R176, R177), and instances side by side (R185). -/

namespace Sys2Proof.Machine

/-! ## Failures of the codec -/

/-- A response word that reports a failure of the codec: OVERFLOW, CORRUPTION or TRUNCATION (R171, R177). -/
abbrev ReportsCodecFailure (w : Word16) : Prop := w = 0x1000 ∨ w = 0x2000 ∨ w = 0x3000

/-- The OK bit tells a success from every failure (R70). -/
theorem not_reportsCodecFailure_ok (d : Byte) : ¬ ReportsCodecFailure (Response.ok d).toWord := by
  have hok := respOk_ok d
  rintro (h | h | h) <;> rw [h] at hok <;> cases hok

theorem atReset_resetCore (s : State) (r : Response) : AtReset (s.resetCore.respond r) := ⟨rfl, rfl, rfl⟩

/-- What an instruction leaves, as far as R177 tells: the reset state, or no response, or one that reports no failure of
the codec. -/
inductive CodecOutcome (s t : State) : Prop where
  | atReset (h : AtReset t)
  | silent (h : t.outbox = s.outbox)
  | answered (w : Word16) (h : t.outbox = s.outbox ++ [w]) (hw : ¬ ReportsCodecFailure w)

theorem CodecOutcome.ok {s t : State} (d : Byte) (h : t.outbox = s.outbox ++ [(Response.ok d).toWord]) :
    CodecOutcome s t := .answered _ h (not_reportsCodecFailure_ok d)

/-- A transition that fails has reset, and DECODE_BYTE returns its response (R120, R177). -/
theorem exec_decodeByte_codecOutcome (b : Byte) (s : State) :
    CodecOutcome s ((decoderStep b s).1.respond (decoderStep b s).2) := by
  obtain ⟨-, -, hout⟩ := decoderStep_frame b s
  rcases hr : decoderStep b s with ⟨t, d | k⟩ <;> rw [hr] at hout
  · exact .ok d (congrArg (· ++ _) hout)
  · rw [decoderStep_fail_eq hr]
    exact .atReset (atReset_resetCore s _)

/-- DECODE_MSG fails where its walk has failed, or with a reset of its own (R129, R177). -/
theorem exec_decodeMsg_codecOutcome (f : List Byte) (s : State) :
    CodecOutcome s ((decodeEnd (decodeWalk f s.resetCore)).1.respond (decodeEnd (decodeWalk f s.resetCore)).2) := by
  obtain ⟨-, -, hout⟩ := decodeWalk_frame f s.resetCore
  obtain ⟨k, hk, hend⟩ | ⟨-, -, hend⟩ | ⟨-, -, hend⟩ := decodeEnd_cases (decodeWalk f s.resetCore) <;> rw [hend]
  · exact .atReset (decodeWalk_fail_atReset (Prod.ext rfl hk) : AtReset (decodeWalk f s.resetCore).1)
  · exact .ok 0 (congrArg (· ++ _) hout)
  · exact .atReset (atReset_resetCore _ _)

/-- Every instruction, one arm each. -/
theorem exec_codecOutcome {i : Instr} {s t : State} (h : exec i s = .next t) : CodecOutcome s t := by
  cases i with
  | reset => cases h; exact .atReset (atReset_resetCore s _)
  | encode raw =>
    obtain ⟨-, h'⟩ | ⟨-, h'⟩ := exec_encode_cases raw s <;> cases h'.symm.trans h
    · exact .ok 0 (by simp)
    · exact .atReset (atReset_resetCore s _)
  | decodeMsg f => cases h; exact exec_decodeMsg_codecOutcome f s
  | decodeByte b => cases h; exact exec_decodeByte_codecOutcome b s
  | readByte k =>
    obtain ⟨-, h'⟩ | ⟨-, h'⟩ := exec_readByte_cases k s <;> cases h'.symm.trans h
    · exact .ok _ rfl
    · exact .answered 0x4000 rfl (by decide)
  | reservedOp0 _ | reservedOp8F _ _ | illegalNoArg _ _ | illegalByteArg _ _ _ =>
    cases h
    exact .answered 0x5000 rfl (by decide)
  | rxNoise b => obtain ⟨-, h'⟩ | ⟨-, h'⟩ := exec_rxNoise_cases b s <;> cases h'.symm.trans h <;> exact .ok 0 rfl
  | rxCorrupt => cases h; exact .atReset (atReset_resetCore s _)
  | rxData b =>
    obtain ⟨-, h'⟩ | ⟨-, h'⟩ := exec_rxData_cases b s <;> cases h'.symm.trans h
    · exact .ok 0 rfl
    · exact .atReset (atReset_resetCore s _)
  | rxEscaped b =>
    obtain ⟨-, h'⟩ | ⟨-, h'⟩ := exec_rxEscaped_cases b s <;> cases h'.symm.trans h
    · exact .ok 0 rfl
    · exact .atReset (atReset_resetCore s _)
  | txSpecial b => rw [exec_txSpecial_eq_next h]; exact .silent rfl
  | txOrdinary b => rw [exec_txOrdinary_eq_next h]; exact .silent rfl
  | _ => cases h; exact .ok _ rfl

/-- Settles O41: an instruction that leaves no reset state returns no response that reports a failure of the codec, and
an escaped byte without room resets whatever it reports. -/
theorem codecFailuresLeaveResetState : Obligations.CodecFailuresLeaveResetState := by
  refine ⟨fun i s t w h hout hw => ?_, fun s t b hs hfull h => ?_⟩
  · cases exec_codecOutcome h with
    | atReset ht => exact ht
    | silent hsilent => simp [hsilent] at hout
    | answered v hv hnot =>
      have hword : v = w := by simpa using hv.symm.trans hout
      exact absurd hw (hword ▸ hnot)
  · rw [exec_decodeByte, decoderStep_escapedFull hs hfull] at h
    cases h
    exact atReset_resetCore s _

/-! ## Illegal rows -/

/-- Settles O13, by the one rule that the four illegal rows follow. -/
theorem illegalRowsAnswerIllegal : Obligations.IllegalRowsAnswerIllegal := fun s =>
  ⟨fun a => exec_of_illegal (.reservedOp0 a) s, fun l a => exec_of_illegal (.reservedOp8F l a) s,
    fun op a => exec_of_illegal (.illegalNoArg op a) s, fun op hi lo => exec_of_illegal (.illegalByteArg op hi lo) s⟩

/-! ## Several instances -/

theorem putInstance_eq_next {k : Nat} {ss ts : List State} {r : Result} (h : putInstance k ss r = .next ts) :
    ∃ t, r = .next t ∧ ts = ss.set k t := by
  cases r with
  | next t => cases h; exact ⟨t, rfl, rfl⟩
  | fault e => cases h
  | refused e => cases h

/-- A product step moves no instance, where the number names none, or puts one instance's own step in its place (D21). -/
theorem stepInstance_eq_next {k : Nat} {ss ts : List State} (h : stepInstance k ss = .next ts) :
    (ss[k]? = none ∧ ts = ss) ∨ ∃ s t, ss[k]? = some s ∧ step s = .next t ∧ ts = ss.set k t := by
  unfold stepInstance at h
  cases hs : ss[k]? with
  | none =>
    rw [hs] at h
    cases h
    exact .inl ⟨rfl, rfl⟩
  | some s =>
    rw [hs] at h
    obtain ⟨t, hstep, hts⟩ := putInstance_eq_next h
    exact .inr ⟨s, t, rfl, hstep, hts⟩

/-- Settles O53: the next state of the one instance that steps is put in its place alone. -/
theorem instancesAreIndependent : Obligations.InstancesAreIndependent := by
  intro k ss ts h
  obtain ⟨hnone, rfl⟩ | ⟨s, t, hs, hstep, rfl⟩ := stepInstance_eq_next h
  · exact ⟨rfl, fun _ _ => rfl, fun s hs => by simp [hnone] at hs⟩
  · obtain ⟨hk, -⟩ := List.getElem?_eq_some_iff.mp hs
    refine ⟨List.length_set, fun j hj => List.getElem?_set_ne hj.symm, fun s' hs' => ?_⟩
    cases hs.symm.trans hs'
    exact ⟨t, hstep, List.getElem?_set_self hk⟩

end Sys2Proof.Machine
end

section
/-! The family of 70_reset_and_hazards.md: what a step answers, by whether the host keeps its obligations (R203, R211). -/

namespace Sys2Proof.Machine

/-- What a command word decodes to always answers. Only an encoder's byte class can fault, and no word decodes to one. -/
theorem exec_decodeCommand_answers (w : Word16) (bs : List Byte) (s : State) :
    ∃ t, exec (decodeCommand w bs) s = .next t := by
  obtain hi | hi | hi | ⟨b, hi⟩ | hi := decodeCommand_codec_or_onlyAnswers w bs
  · exact ⟨_, hi ▸ exec_reset s⟩
  · rw [hi]
    obtain ⟨-, h⟩ | ⟨-, h⟩ := exec_encode_cases bs s
    · exact ⟨_, h⟩
    · exact ⟨_, h⟩
  · exact ⟨_, hi ▸ exec_decodeMsg bs s⟩
  · exact ⟨_, hi ▸ exec_decodeByte b s⟩
  · obtain ⟨r, h⟩ := exec_of_onlyAnswers hi s
    exact ⟨_, h⟩

/-- While the host keeps its obligations a step runs a command or waits (R187, R211). -/
theorem step_answers {s : State} (h : HostKeepsOrder s) : ∃ t, step s = .next t := by
  obtain ⟨hstray, hamong⟩ := h
  cases hd : decode s.inbox with
  | ok i rest =>
    obtain ⟨w, bs, -, -, rfl⟩ := decode_eq_ok hd
    rw [step_of_decode hd]
    exact exec_decodeCommand_answers w bs (s.withInbox rest)
  | error e =>
    cases e with
    | empty => exact ⟨s, step_of_error hd⟩
    | missingBeats => exact ⟨s, step_of_error hd⟩
    | strayBeat => exact absurd hd hstray
    | wordAmongBeats => exact absurd hd hamong

/-- Each of the host's two disorders is refused under its own name (R203). -/
theorem step_refuses {s : State} (h : ¬ HostKeepsOrder s) :
    step s = .refused .strayBeat ∨ step s = .refused .overlappedCommand := by
  obtain hstray | hamong : decode s.inbox = .error .strayBeat ∨ decode s.inbox = .error .wordAmongBeats := by
    by_contra hneither
    exact h (not_or.mp hneither)
  · exact .inl (step_of_error hstray)
  · exact .inr (step_of_error hamong)

/-- Settles O49: a step answers where the host keeps its obligations and refuses where it does not, so it never faults. -/
theorem stepStopsOnlyOnHostDisorder : Obligations.StepStopsOnlyOnHostDisorder := by
  refine ⟨fun s e hfault => ?_, fun s => ⟨fun ⟨t, ht⟩ => ?_, step_answers⟩⟩
  · by_cases h : HostKeepsOrder s
    · obtain ⟨t, ht⟩ := step_answers h
      cases ht.symm.trans hfault
    · obtain hr | hr := step_refuses h <;> cases hr.symm.trans hfault
  · by_contra h
    obtain hr | hr := step_refuses h <;> cases hr.symm.trans ht

end Sys2Proof.Machine
end
